-- ==== Sys2Proof/Word.lean ====
section
/-! DEFINITION. The word types of the CORE (00_scope.md R6, R8): every value is unsigned. -/

namespace Sys2Proof

/-- A request word (30_encoding.md R72). -/
abbrev Word := BitVec 32

/-- A pixel cell, a payload byte, an operand byte (00_scope.md R6: `PIX_BITS`, `ACC_BITS`, `BYTE_BITS`). -/
abbrev Byte := BitVec 8

/-- The linear index of a cell of either pixel array (20_memory.md R51). -/
abbrev Index := BitVec 8

/-- The row cursor and a row of either array (10_state.md R26). -/
abbrev RowIx := BitVec 3

/-- A global column index, 0 to 31 (10_state.md R22, 41_render_engine.md R133). -/
abbrev ColIx := BitVec 5

/-- The frame counter and the number a Vsync carries (10_state.md R27). -/
abbrev FrameNumber := BitVec 32

/-- A row-refresh period in the timer's abstract tick unit (10_state.md R28). -/
abbrev Period := BitVec 24

/-- The level of an output line or the value of one bit: `false` is 0, `true` is 1 (00_scope.md R9). -/
abbrev Level := Bool

end Sys2Proof
end

