-- ==== Sys2Proof/Config.lean ====
section
/-! DEFINITION. The implementation parameters of 00_scope.md R6, and the free values: what the spec leaves OPEN or
draws. An `opaque` constant has no body: no proof can see its value, so a claim holds whatever it is. -/

namespace Sys2Proof.Config

/-- `ROWS` (00_scope.md R6). -/
abbrev rows : Nat := 8

/-- `COLS` (00_scope.md R6). -/
abbrev cols : Nat := 32

/-- `MODULES` (00_scope.md R6). -/
abbrev modules : Nat := 4

/-- `COLS_PER_MODULE` (00_scope.md R6). -/
abbrev colsPerModule : Nat := 8

/-- `FRAME_BYTES`, the length of a WRITE_FRAME payload (00_scope.md R6, 20_memory.md R53). -/
abbrev frameBytes : Nat := 256

/-- `P_INIT`, the period INIT hands to the timer: an OPEN parameter (00_scope.md R6, 92_eei_decisions.md D7; log
entry 9). -/
opaque pInit : Period

/-- `SEED`, the initial accumulator contents: a draw of 256 arbitrary bytes (10_state.md R32, 92_eei_decisions.md D9;
log entry 7). The first argument numbers the draw, the second is the index of the cell. -/
opaque seed : Nat → Index → Byte

/-- The choices that make a `COPY_ORDER`: any permutation, drawn per WRITE_FRAME (42_lifecycle.md R161,
92_eei_decisions.md D16; log entry 8). The first argument numbers the draw, the second the choice within it;
`Sys2Proof.Machine.copyOrder` turns the choices into a permutation. -/
opaque copyPick : Nat → Nat → Nat

end Sys2Proof.Config
end

