-- ==== Sys2Proof/Syntax.lean ====
section
/-! DEFINITION. The nine requests of the CORE (30_encoding.md R73; spec/opcode_table.json), with their operands
(R74). -/

namespace Sys2Proof

/-- A request, one constructor per row of the opcode table. The payload of WRITE_FRAME is its operand although it is
no field of the word (30_encoding.md R74, R77). -/
inductive Instr where
  /-- INIT (42_lifecycle.md R160) -/
  | init
  /-- WRITE_FRAME (42_lifecycle.md R161), with the payload as handed over, of any length -/
  | writeFrame (payload : List Byte)
  /-- ENABLE (42_lifecycle.md R163) -/
  | enable
  /-- DISABLE (42_lifecycle.md R164) -/
  | disable
  /-- SET_PERIOD (42_lifecycle.md R165) -/
  | setPeriod (divider : Period)
  /-- LATCH (40_protocol_driver.md R101) -/
  | latch (level : Level)
  /-- SHIFT (40_protocol_driver.md R103) -/
  | shift (byte : Byte)
  /-- COMMAND (40_protocol_driver.md R104) -/
  | command (cmd data : Byte)
  /-- TICK, on the timer port (41_render_engine.md R130) -/
  | tick
  deriving DecidableEq, Repr

end Sys2Proof
end

