-- ==== Sys2Proof/WellFormed.lean ====
section
/-! DEFINITION. Which request terms are well formed. The operand widths are in the types; the one check left is the
length of a WRITE_FRAME payload (30_encoding.md R77). A request that fails it is still a request: executing it raises
BAD_FRAME_SIZE (60_exceptions.md R211). -/

namespace Sys2Proof

/-- The check, as a Bool: a WRITE_FRAME payload has exactly 256 bytes (30_encoding.md R77, 20_memory.md R53). -/
def Instr.wellFormed : Instr → Bool
  | .init => true
  | .writeFrame payload => payload.length == Config.frameBytes
  | .enable => true
  | .disable => true
  | .setPeriod _ => true
  | .latch _ => true
  | .shift _ => true
  | .command _ _ => true
  | .tick => true

/-- The check, as a proposition. -/
abbrev WellFormed (i : Instr) : Prop := i.wellFormed = true

end Sys2Proof
end

