-- ==== Sys2Proof/Decode.lean ====
section
/-! DEFINITION. From a request word (and the payload handed over with it) to a request or a refusal by name, in the
check order of 60_exceptions.md R206; and back (30_encoding.md R70 to R77). -/

namespace Sys2Proof

/-- The two input ports (30_encoding.md R70). -/
inductive Port where
  | host
  | timer
  deriving DecidableEq, Repr

/-- The reasons a word is refused (60_exceptions.md R205). -/
inductive RefusalReason where
  /-- RESERVED_OPCODE: the operation code is reserved (30_encoding.md R76) -/
  | reservedOpcode
  /-- WRONG_PORT: TICK on the host port, or a host operation on the timer port (30_encoding.md R71) -/
  | wrongPort
  /-- NONZERO_MBZ: a defined operation code with a 1 in a must-be-zero bit (30_encoding.md R75) -/
  | nonzeroMbz
  deriving DecidableEq, Repr

/-- The operations of the opcode map (30_encoding.md R73). -/
inductive Opcode where
  | init
  | writeFrame
  | enable
  | disable
  | setPeriod
  | latch
  | shift
  | command
  | tick
  deriving DecidableEq, Repr

/-- The operations in the map's order (30_encoding.md R73). -/
def Opcode.all : List Opcode :=
  [.init, .writeFrame, .enable, .disable, .setPeriod, .latch, .shift, .command, .tick]

/-- The value of the field OPC (30_encoding.md R73). -/
def Opcode.number : Opcode → Byte
  | .init => 0x01
  | .writeFrame => 0x02
  | .enable => 0x03
  | .disable => 0x04
  | .setPeriod => 0x05
  | .latch => 0x06
  | .shift => 0x07
  | .command => 0x08
  | .tick => 0x10

/-- The bits outside OPC that must be zero: those the map's word pattern marks `0` (30_encoding.md R73, R75). -/
def Opcode.mustBeZero : Opcode → Word
  | .init => 0xFFFFFF00
  | .writeFrame => 0xFFFFFF00
  | .enable => 0xFFFFFF00
  | .disable => 0xFFFFFF00
  | .setPeriod => 0x00000000
  | .latch => 0xFFFFFE00
  | .shift => 0xFFFF0000
  | .command => 0xFF000000
  | .tick => 0xFFFFFF00

/-- The port that takes the operation (30_encoding.md R71, R73). -/
def Opcode.port : Opcode → Port
  | .init => .host
  | .writeFrame => .host
  | .enable => .host
  | .disable => .host
  | .setPeriod => .host
  | .latch => .host
  | .shift => .host
  | .command => .host
  | .tick => .timer

/-- The field OPC, `word[7:0]` (30_encoding.md R72). -/
def opcField (w : Word) : Byte := w.extractLsb' 0 8

/-- The field F1, `word[15:8]` (30_encoding.md R72). -/
def f1Field (w : Word) : Byte := w.extractLsb' 8 8

/-- The field F2, `word[23:16]` (30_encoding.md R72). -/
def f2Field (w : Word) : Byte := w.extractLsb' 16 8

/-- The operand of SET_PERIOD, `word[31:8]` (30_encoding.md R72, R74). -/
def dividerField (w : Word) : Period := w.extractLsb' 8 24

/-- The operand of LATCH, `word[8]` (30_encoding.md R74). -/
def levelField (w : Word) : Level := w.getLsbD 8

/-- The operation a code names, or none for a reserved code (30_encoding.md R73, R76). -/
def opcodeOf (b : Byte) : Option Opcode := Opcode.all.find? fun o => o.number == b

/-- The checks a word meets on a port, in the order of 60_exceptions.md R206: reserved code, wrong port, must-be-zero
bits. -/
def checkWord (p : Port) (w : Word) : Except RefusalReason Opcode :=
  match opcodeOf (opcField w) with
  | none => .error .reservedOpcode
  | some o =>
    if o.port ≠ p then .error .wrongPort
    else if w &&& o.mustBeZero ≠ 0 then .error .nonzeroMbz
    else .ok o

/-- The request of an operation, with its operands taken from the word and the payload (30_encoding.md R74, R77). -/
def withOperands (o : Opcode) (w : Word) (payload : List Byte) : Instr :=
  match o with
  | .init => .init
  | .writeFrame => .writeFrame payload
  | .enable => .enable
  | .disable => .disable
  | .setPeriod => .setPeriod (dividerField w)
  | .latch => .latch (levelField w)
  | .shift => .shift (f1Field w)
  | .command => .command (f1Field w) (f2Field w)
  | .tick => .tick

/-- Decoding a word presented on a port with a payload. The payload of any request but WRITE_FRAME is not read
(30_encoding.md R77; log entry 12). -/
def decodePort (p : Port) (w : Word) (payload : List Byte) : Except RefusalReason Instr :=
  match checkWord p w with
  | .error r => .error r
  | .ok o => .ok (withOperands o w payload)

/-- The port a word belongs to: the timer port for the code of TICK, else the host port (30_encoding.md R71). -/
def portOf (w : Word) : Port :=
  match opcodeOf (opcField w) with
  | some o => o.port
  | none => .host

/-- Decoding a word on the port it belongs to. -/
def decode (w : Word) (payload : List Byte) : Except RefusalReason Instr := decodePort (portOf w) w payload

/-- The operation of a request. -/
def Instr.opcode : Instr → Opcode
  | .init => .init
  | .writeFrame _ => .writeFrame
  | .enable => .enable
  | .disable => .disable
  | .setPeriod _ => .setPeriod
  | .latch _ => .latch
  | .shift _ => .shift
  | .command _ _ => .command
  | .tick => .tick

/-- The word of a request, written from the word patterns of 30_encoding.md R73. -/
def encodeWord : Instr → Word
  | .init => 0x00000001
  | .writeFrame _ => 0x00000002
  | .enable => 0x00000003
  | .disable => 0x00000004
  | .setPeriod divider => divider ++ 0x05#8
  | .latch level => 0x000000#23 ++ BitVec.ofBool level ++ 0x06#8
  | .shift byte => 0x0000#16 ++ byte ++ 0x07#8
  | .command cmd data => 0x00#8 ++ data ++ cmd ++ 0x08#8
  | .tick => 0x00000010

/-- The payload handed over with a request's word (30_encoding.md R77). -/
def encodePayload : Instr → List Byte
  | .init => []
  | .writeFrame payload => payload
  | .enable => []
  | .disable => []
  | .setPeriod _ => []
  | .latch _ => []
  | .shift _ => []
  | .command _ _ => []
  | .tick => []

/-- A request as it stands on its port: its word and its payload. -/
def encode (i : Instr) : Word × List Byte := (encodeWord i, encodePayload i)

/-- A payload of zeros: the operand bytes that the opcode table gives no bits. -/
def zeroPayload : List Byte := List.replicate Config.frameBytes 0

/-- The request read from an instruction whose bits are `w`, numbered as the opcode table numbers them: the word is
bits 31 to 0, and the payload bytes, which the table gives no bits, are zeros. -/
def decodeTableWord (nbits w : Nat) : Option Instr :=
  match decode (BitVec.ofNat 32 (w % 2 ^ nbits)) zeroPayload with
  | .ok i => some i
  | .error _ => none

end Sys2Proof
end

