-- ==== Sys2Proof/Machine/State.lean ====
section
/-! DEFINITION. The state of the CORE as plain data (10_state.md R20), the reasons a step stops, and the state at
power-on (10_state.md R38). -/

namespace Sys2Proof.Machine

/-- The lifecycle state `MODE` (10_state.md R25). The value 3, which no rule writes, is not a name (log entry 14). -/
inductive Mode where
  /-- 0, INIT has not been performed -/
  | uninit
  /-- 1, interrupt not attached, row cursor and frame counter frozen -/
  | disabled
  /-- 2, interrupt attached -/
  | enabled
  deriving DecidableEq, Repr

/-- The value `MODE` holds for each name (10_state.md R25). -/
def Mode.bits : Mode → BitVec 2
  | .uninit => 0
  | .disabled => 1
  | .enabled => 2

/-- The three output lines (00_scope.md R9, R10). -/
inductive Line where
  | dat
  | clk
  | lat
  deriving DecidableEq, Repr

/-- The controls sent to the timer capability (00_scope.md R10). -/
inductive TimerControl where
  | prepare (p : Period)
  | attach
  | detach
  | period (d : Period)
  deriving DecidableEq, Repr

/-- The output events (00_scope.md R10). -/
inductive Event where
  /-- a line driven to a level -/
  | line (l : Line) (v : Level)
  /-- the frame-completion notification -/
  | vsync (n : FrameNumber)
  /-- a control sent to the timer capability -/
  | timer (c : TimerControl)
  deriving DecidableEq, Repr

/-- The causes of a fault (60_exceptions.md R201); no other code is ever raised (93_implementation_defined.md I22). -/
inductive FaultCode where
  | notInitialized
  | reinit
  | enableWhileEnabled
  | disableWhileDisabled
  | badFrameSize
  | busBusy
  deriving DecidableEq, Repr

/-- The 8-bit number of a fault code (60_exceptions.md R201). -/
def FaultCode.number : FaultCode → Byte
  | .notInitialized => 0x01
  | .reinit => 0x02
  | .enableWhileEnabled => 0x03
  | .disableWhileDisabled => 0x04
  | .badFrameSize => 0x05
  | .busBusy => 0x06

/-- The record `FAULT` holds: the cause and the request word that raised it (10_state.md R30). -/
structure FaultMark where
  code : FaultCode
  word : Word
  deriving DecidableEq, Repr

/-- The mark `REFUSED` holds: the reason and the word refused (10_state.md R30). -/
structure RefusalMark where
  reason : RefusalReason
  word : Word
  deriving DecidableEq, Repr

/-- `COPY`, the in-flight part of a WRITE_FRAME (10_state.md R33). `next` counts the byte writes performed; a copy
that has performed all 256 is no longer in flight, so between steps it is below 256 (log entry 13). -/
structure Copy where
  payload : Vector Byte 256
  order : Vector Index 256
  next : Fin 256
  deriving DecidableEq, Repr

/-- One pixel array: (index, byte) cells with indices strictly rising and no cell equal to what an unlisted index
reads as (20_memory.md R50, R51; log entry 6). -/
abbrev Memory := List Host.Cell

/-- What happens next around the CORE: a word presented on a port (30_encoding.md R70), or the copy agent's turn
(42_lifecycle.md R162). A list of turns is one interleaving (20_memory.md R61, 30_encoding.md R86; log entry 1). -/
inductive Turn where
  /-- the host presents a word, with a payload that only WRITE_FRAME reads -/
  | host (word : Word) (payload : List Byte)
  /-- the timer presents a word -/
  | timer (word : Word)
  /-- the copy agent takes a step -/
  | copy
  deriving DecidableEq, Repr

/-- The state `S` of the CORE (10_state.md R20). The last two fields are the model's own: the interleaving still to
come (log entry 1) and the number of draws taken (log entry 10). -/
structure State where
  /-- `MODE` (10_state.md R25) -/
  mode : Mode
  /-- `ROW`, the row cursor (10_state.md R26) -/
  row : RowIx
  /-- `FC`, the frame counter (10_state.md R27) -/
  fc : FrameNumber
  /-- `PERIOD` (10_state.md R28) -/
  period : Period
  /-- `DAT`, the level of the data line (10_state.md R29) -/
  dat : Level
  /-- `CLK`, the level of the clock line (10_state.md R29) -/
  clk : Level
  /-- `LAT`, the level of the latch line (10_state.md R29) -/
  lat : Level
  /-- `FAULT`, the sticky fault record (10_state.md R30) -/
  fault : Option FaultMark
  /-- `REFUSED`, the sticky refusal mark (10_state.md R30) -/
  refused : Option RefusalMark
  /-- `FB`, the grayscale framebuffer (10_state.md R31) -/
  fb : Memory
  /-- `ACC`, the accumulator buffer (10_state.md R32) -/
  acc : Memory
  /-- `COPY`, the copy in flight (10_state.md R33) -/
  copy : Option Copy
  /-- `TRACE`, the events emitted, oldest first (10_state.md R35) -/
  trace : List Event
  /-- what the environment does next, in order (the model's own) -/
  turns : List Turn
  /-- how many draws have been taken (the model's own) -/
  draws : Nat
  deriving DecidableEq, Repr

/-- Why a step stops. These are not the CORE's faults, which are recorded in `State.fault` by a step that completes. -/
inductive Fault where
  /-- Raised by `step` and by every request while `FAULT` is recorded: no agent has a step (60_exceptions.md R202).
  Safe: the spec gives no behaviour after it. -/
  | faultRecorded
  /-- Raised by `step` and by every request while `REFUSED` is recorded: no agent has a step (60_exceptions.md R204).
  Safe: the spec gives no behaviour after it. -/
  | refusalRecorded
  /-- Raised by a host request executed while a copy is in flight: the host has no step then (60_exceptions.md R206).
  `step` never raises it, because it runs the copy step instead. Safe: the spec holds the request back. -/
  | hostHeld
  deriving DecidableEq, Repr

/-- Why an instruction has no meaning in the model. -/
inductive Refusal where
  /-- Raised by an arm of `exec` whose instruction has no meaning yet. Safe: nothing can be proved through it. -/
  | notModelled (mnemonic : String)
  deriving DecidableEq, Repr

/-- What running a request or a step answers. -/
abbrev Result := Host.Outcome State Fault Refusal

/-- Power-on (10_state.md R38, 70_reset_and_hazards.md R230): `MODE` is UNINIT, `FAULT`, `REFUSED` and `COPY` are
none, `TRACE` is empty. The spec gives the other fields no value; the zeros are the model's (log entries 5 and 6), and
so are the empty `turns` and the 0 of `draws` (log entries 1 and 10). -/
def State.reset : State where
  mode := .uninit
  row := 0
  fc := 0
  period := 0
  dat := false
  clk := false
  lat := false
  fault := none
  refused := none
  fb := []
  acc := []
  copy := none
  trace := []
  turns := []
  draws := 0

end Sys2Proof.Machine
end

