-- ==== Sys2Proof/Machine/Operands.lean ====
section
/-! DEFINITION. The operand forms of the CORE: which cell a row and a column name (20_memory.md R51), the column of a
module's pixel (41_render_engine.md R133) and the row-select byte (41_render_engine.md R134). The fields of a request
word are in Sys2Proof/Decode.lean. -/

namespace Sys2Proof.Machine

/-- The linear index `i = r*32 + c` (20_memory.md R51). -/
def cellIndex (r : RowIx) (c : ColIx) : Index := r.setWidth 8 * 32 + c.setWidth 8

/-- The row of an index, `i[7:5]` (20_memory.md R51). -/
def indexRow (i : Index) : RowIx := i.extractLsb' 5 3

/-- The column of an index, `i[4:0]` (20_memory.md R51). -/
def indexCol (i : Index) : ColIx := i.extractLsb' 0 5

/-- The module indices in the order sent (41_render_engine.md R132). -/
def moduleOrder : List (BitVec 2) := [0, 1, 2, 3]

/-- The columns within a module in the order sent (41_render_engine.md R132). -/
def columnOrder : List (BitVec 3) := [0, 1, 2, 3, 4, 5, 6, 7]

/-- The global column `x = 8*m + j` (41_render_engine.md R133). -/
def column (m : BitVec 2) (j : BitVec 3) : ColIx := 8 * m.setWidth 5 + j.setWidth 5

/-- The row-select byte `ROWSEL(row) = row + 1` (41_render_engine.md R134). -/
def rowSelect (row : RowIx) : Byte := row.setWidth 8 + 1

/-- Every index of a pixel array, in increasing order (20_memory.md R51). -/
def allIndices : List Index := (List.range Config.frameBytes).map (BitVec.ofNat 8)

/-- The payload byte that goes to index `i` (20_memory.md R51). -/
def payloadAt (p : Vector Byte 256) (i : Index) : Byte := p[i.toNat]'i.isLt

end Sys2Proof.Machine
end

