-- ==== Sys2Proof/Machine/Flags.lean ====
section
/-! DEFINITION. The CORE's one flag, the overflow bit `C` of a pixel update, and the sum it comes from
(10_state.md R24, 41_render_engine.md R131). -/

namespace Sys2Proof.Machine

/-- `SUM = zext_9(a) + zext_9(f)`, 9 bits, 0 to 510 (41_render_engine.md R131). -/
def pixelSum (a f : Byte) : BitVec 9 := a.setWidth 9 + f.setWidth 9

/-- What the accumulator takes, `SUM[7:0]` (41_render_engine.md R131). -/
def pixelWrapped (a f : Byte) : Byte := (pixelSum a f).extractLsb' 0 8

/-- The overflow bit, `C = SUM[8]` (10_state.md R24, 41_render_engine.md R131). -/
def pixelCarry (a f : Byte) : Level := (pixelSum a f).getLsbD 8

end Sys2Proof.Machine
end

