-- ==== Sys2Proof/Machine/Ops.lean ====
section
/-! DEFINITION. The named operations every request is written with: reading and writing the pixel arrays, writing a
field, driving a line, the serial sub-sequences, drawing a copy order, and entering a fault or a refusal. -/

namespace Sys2Proof.Machine

/-! ## The pixel arrays (20_memory.md R50 to R56) -/

/-- What an index that no cell lists reads as. The spec gives the arrays no contents at power-on (10_state.md R38);
the model's choice is log entry 6. -/
def unlisted : Byte := 0

/-- The byte at a position of the list form. -/
def cellAt : Memory → Nat → Byte
  | [], _ => unlisted
  | (a, b) :: m, k => if a = k then b else cellAt m k

/-- A cell put in its place by rising index. -/
def insertCell (k : Nat) (v : Byte) : Memory → Memory
  | [] => [(k, v)]
  | (a, b) :: m => if k < a then (k, v) :: (a, b) :: m else (a, b) :: insertCell k v m

/-- `MemRead(array, i, 1)` (00_scope.md R9). -/
def Memory.read (m : Memory) (i : Index) : Byte := cellAt m i.toNat

/-- `MemWrite(array, i, 1, v)` (00_scope.md R9). The old cell goes, and a new one is listed unless it would equal what
an unlisted index reads as. -/
def Memory.write (m : Memory) (i : Index) (v : Byte) : Memory :=
  let others := m.filter fun c => c.1 != i.toNat
  if v = unlisted then others else insertCell i.toNat v others

/-- Every cell written, in increasing index order: the loops of INIT (42_lifecycle.md R160). -/
@[irreducible] def Memory.fill (m : Memory) (v : Index → Byte) : Memory :=
  allIndices.foldl (fun m i => m.write i (v i)) m

/-- The canonical form: indices strictly rising and below 256, no cell equal to what an unlisted index reads as. -/
abbrev Memory.wf (m : Memory) : Prop :=
  m.Pairwise (fun x y => x.1 < y.1) ∧ ∀ c ∈ m, c.1 < Config.frameBytes ∧ c.2 ≠ unlisted

/-! ## Fields -/

/-- `S.MODE <- m` -/
def State.setMode (s : State) (m : Mode) : State := { s with mode := m }

/-- `S.ROW <- r` -/
def State.setRow (s : State) (r : RowIx) : State := { s with row := r }

/-- `S.FC <- n` -/
def State.setFc (s : State) (n : FrameNumber) : State := { s with fc := n }

/-- `S.PERIOD <- p` -/
def State.setPeriod (s : State) (p : Period) : State := { s with period := p }

/-- `S.L <- v` for an output line `L` -/
def State.setLine (s : State) (l : Line) (v : Level) : State :=
  match l with
  | .dat => { s with dat := v }
  | .clk => { s with clk := v }
  | .lat => { s with lat := v }

/-- `S.FAULT <- (code, word)` -/
def State.setFault (s : State) (f : FaultMark) : State := { s with fault := some f }

/-- `S.REFUSED <- (reason, word)` -/
def State.setRefused (s : State) (r : RefusalMark) : State := { s with refused := some r }

/-- `MemWrite(FB, i, 1, v)` -/
def State.writeFb (s : State) (i : Index) (v : Byte) : State := { s with fb := s.fb.write i v }

/-- `MemWrite(ACC, i, 1, v)` -/
def State.writeAcc (s : State) (i : Index) (v : Byte) : State := { s with acc := s.acc.write i v }

/-- every cell of the framebuffer written -/
def State.fillFb (s : State) (v : Index → Byte) : State := { s with fb := s.fb.fill v }

/-- every cell of the accumulator buffer written -/
def State.fillAcc (s : State) (v : Index → Byte) : State := { s with acc := s.acc.fill v }

/-- `S.COPY <- c` -/
def State.setCopy (s : State) (c : Option Copy) : State := { s with copy := c }

/-- the interleaving still to come -/
def State.setTurns (s : State) (t : List Turn) : State := { s with turns := t }

/-- one draw taken -/
def State.countDraw (s : State) : State := { s with draws := s.draws + 1 }

/-- `Emit(e)`: append an event to the trace (00_scope.md R9) -/
def State.emit (s : State) (e : Event) : State := { s with trace := s.trace ++ [e] }

/-- `MemRead(FB, i, 1)` (20_memory.md R57: always the current cell) -/
def State.readFb (s : State) (i : Index) : Byte := s.fb.read i

/-- `MemRead(ACC, i, 1)` -/
def State.readAcc (s : State) (i : Index) : Byte := s.acc.read i

/-! ## The lines (40_protocol_driver.md R100 to R105) -/

/-- `Drive(L, v)`: set the level of a line and record the drive, also one that changes nothing
(40_protocol_driver.md R100). -/
def drive (l : Line) (v : Level) (s : State) : State := (s.setLine l v).emit (.line l v)

/-- The loop of `ShiftOut`: `k` more bits, the high bit of `sr` first (40_protocol_driver.md R102). -/
def shiftBits : Nat → Byte → State → State
  | 0, _, s => s
  | k + 1, sr, s => shiftBits k (sr <<< 1) (drive .clk true (drive .dat (sr.getLsbD 7) (drive .clk false s)))

/-- `ShiftOut(b)`: a byte, most significant bit first (40_protocol_driver.md R102). -/
def shiftOut (b : Byte) (s : State) : State := shiftBits 8 b s

/-- `PixelOut(c)`: one pixel bit, the data line set before the clock goes low (40_protocol_driver.md R105). -/
def pixelOut (c : Level) (s : State) : State := drive .clk true (drive .clk false (drive .dat c s))

/-! ## The copy order (42_lifecycle.md R161) -/

/-- A list reordered by choices: the head goes to a chosen place among the reordered tail. Every reordering is some
choice. -/
def shuffle (pick : Nat → Nat) : List Index → List Index
  | [] => []
  | i :: is => (shuffle pick is).insertIdx (pick is.length % (is.length + 1)) i

/-- Reordering keeps the length. -/
theorem length_shuffle (pick : Nat → Nat) (is : List Index) : (shuffle pick is).length = is.length := by
  induction is with
  | nil => rfl
  | cons i is ih =>
    have h : pick is.length % (is.length + 1) ≤ is.length := Nat.le_of_lt_succ (Nat.mod_lt _ (Nat.succ_pos _))
    simp [shuffle, List.length_insertIdx, ih, h]

/-- `draw(COPY_ORDER)`: an unconstrained permutation of 0 to 255 (42_lifecycle.md R161; log entry 8). -/
@[irreducible] def copyOrder (draw : Nat) : Vector Index 256 :=
  ⟨(shuffle (Config.copyPick draw) allIndices).toArray, by simp [length_shuffle, allIndices]⟩

/-! ## Faults, refusals and the request prelude (60_exceptions.md R202 to R207) -/

/-- `raise Fault(code, word)`: the fault is recorded and nothing else changes (60_exceptions.md R202). There is no
return from it (R203). -/
def raiseFault (code : FaultCode) (word : Word) (s : State) : State := s.setFault ⟨code, word⟩

/-- `refuse(reason)`: the refusal is recorded and nothing else changes (60_exceptions.md R204). -/
def refuse (reason : RefusalReason) (word : Word) (s : State) : State := s.setRefused ⟨reason, word⟩

/-- Why no agent has a step, if none has: an earlier fault or refusal (60_exceptions.md R202, R204; log entry 3). -/
def stopped (s : State) : Option Fault :=
  if s.fault.isSome then some .faultRecorded
  else if s.refused.isSome then some .refusalRecorded
  else none

/-- What every agent checks first: no step after an earlier fault or refusal (60_exceptions.md R206). -/
def unlessStopped (s : State) (run : Result) : Result :=
  match stopped s with
  | some f => .fault f
  | none => run

/-- What every host request checks first: no step after an earlier fault or refusal, none while a copy is in flight
(60_exceptions.md R206; log entry 16). -/
def hostStep (s : State) (run : Result) : Result :=
  unlessStopped s (if s.copy.isSome then .fault .hostHeld else run)

/-- The prelude of every host request but INIT: NOT_INITIALIZED while `MODE` is UNINIT, before the request's own checks
(60_exceptions.md R206, R207). The word recorded is the request's own word (log entry 11). -/
def hostRequest (i : Instr) (s : State) (run : State) : Result :=
  hostStep s (.next (if s.mode = .uninit then raiseFault .notInitialized (encodeWord i) s else run))

/-- The prelude of LATCH, SHIFT and COMMAND: BUS_BUSY while `MODE` is ENABLED (60_exceptions.md R212). -/
def busRequest (i : Instr) (s : State) (run : State) : Result :=
  hostRequest i s (if s.mode = .enabled then raiseFault .busBusy (encodeWord i) s else run)

end Sys2Proof.Machine
end

