-- ==== Sys2Proof/Machine/Copying.lean ====
section
/-! DEFINITION. The copy agent: the step that carries a WRITE_FRAME out one byte at a time (42_lifecycle.md R162). -/

namespace Sys2Proof.Machine

/-- The copy after one more byte write; none once all 256 have been performed (42_lifecycle.md R162). -/
def copyAfterWrite (c : Copy) : Option Copy :=
  if h : c.next.val + 1 < 256 then some { c with next := ⟨c.next.val + 1, h⟩ } else none

/-- `CopyStep()` (42_lifecycle.md R162). With no copy in flight the copy agent has no step and nothing changes. -/
def copyStep (s : State) : State :=
  match s.copy with
  | none => s
  | some c =>
    let i := c.order[c.next.val]
    (s.writeFb i (payloadAt c.payload i)).setCopy (copyAfterWrite c)

end Sys2Proof.Machine
end

