-- ==== Sys2Proof/Machine/Driver.lean ====
section
/-! DEFINITION. The requests of the panel protocol driver (40_protocol_driver.md R101, R103, R104). None looks at how
the lines stand (R107); each is one atomic step (R108). -/

namespace Sys2Proof.Machine

/-- LATCH (40_protocol_driver.md R101). -/
def execLatch (level : Level) (s : State) : Result :=
  busRequest (.latch level) s (drive .lat level s)

/-- SHIFT (40_protocol_driver.md R103). -/
def execShift (byte : Byte) (s : State) : Result :=
  busRequest (.shift byte) s (shiftOut byte s)

/-- COMMAND (40_protocol_driver.md R104): a two-byte frame in one latch bracket. -/
def execCommand (cmd data : Byte) (s : State) : Result :=
  busRequest (.command cmd data) s
    (drive .lat true (shiftOut data (shiftOut cmd (drive .lat false s))))

end Sys2Proof.Machine
end

