-- ==== Sys2Proof/Machine/Lifecycle.lean ====
section
/-! DEFINITION. The lifecycle requests (42_lifecycle.md R160 to R165). Each checks its own fault after the prelude and
before its first write (60_exceptions.md R202). -/

namespace Sys2Proof.Machine

/-- What INIT does to a CORE that is UNINIT (42_lifecycle.md R160): the idle levels, `FB` zeroed, `ACC` seeded by a
draw, `ROW` and `FC` zeroed, the timer prepared but not attached. -/
def initEffect (s : State) : State :=
  let idle := drive .lat true (drive .clk true (drive .dat false s))
  let arrays := ((idle.fillFb fun _ => 0).fillAcc (Config.seed s.draws)).countDraw
  let counters := ((arrays.setRow 0).setFc 0).setPeriod Config.pInit
  (counters.emit (.timer (.prepare Config.pInit))).setMode .disabled

/-- INIT (42_lifecycle.md R160): the one request the prelude lets through while UNINIT; REINIT otherwise
(60_exceptions.md R208). -/
def execInit (s : State) : Result :=
  hostStep s (.next (if s.mode = .uninit then initEffect s else raiseFault .reinit (encodeWord .init) s))

/-- WRITE_FRAME (42_lifecycle.md R161): captures the payload and a drawn order; the copy steps complete it.
BAD_FRAME_SIZE unless the payload has 256 bytes (60_exceptions.md R211). -/
def execWriteFrame (payload : List Byte) (s : State) : Result :=
  hostRequest (.writeFrame payload) s <|
    if h : payload.length = 256 then
      (s.setCopy (some ⟨⟨payload.toArray, by simpa using h⟩, copyOrder s.draws, 0⟩)).countDraw
    else raiseFault .badFrameSize (encodeWord (.writeFrame payload)) s

/-- ENABLE (42_lifecycle.md R163): attaches the handler, resets nothing. ENABLE_WHILE_ENABLED (60_exceptions.md
R209). -/
def execEnable (s : State) : Result :=
  hostRequest .enable s <|
    if s.mode = .enabled then raiseFault .enableWhileEnabled (encodeWord .enable) s
    else (s.setMode .enabled).emit (.timer .attach)

/-- DISABLE (42_lifecycle.md R164): detaches the handler, freezes the counters. DISABLE_WHILE_DISABLED
(60_exceptions.md R210). -/
def execDisable (s : State) : Result :=
  hostRequest .disable s <|
    if s.mode = .disabled then raiseFault .disableWhileDisabled (encodeWord .disable) s
    else (s.setMode .disabled).emit (.timer .detach)

/-- SET_PERIOD (42_lifecycle.md R165): every divider is taken, 0 too, in DISABLED and in ENABLED. -/
def execSetPeriod (divider : Period) (s : State) : Result :=
  hostRequest (.setPeriod divider) s <| (s.setPeriod divider).emit (.timer (.period divider))

end Sys2Proof.Machine
end

