-- ==== Sys2Proof/Machine/Render.lean ====
section
/-! DEFINITION. The dithering render engine: TICK and the row render it runs (41_render_engine.md R130 to R137). -/

namespace Sys2Proof.Machine

/-- `PixelUpdate(r, x)` and the `PixelOut(C)` that follows it: the accumulator takes the wrapped sum, the overflow bit
goes out on the wire (41_render_engine.md R131, R132 step 2b). -/
def renderPixel (r : RowIx) (x : ColIx) (s : State) : State :=
  let i := cellIndex r x
  let a := s.readAcc i
  let f := s.readFb i
  pixelOut (pixelCarry a f) (s.writeAcc i (pixelWrapped a f))

/-- One module of a row: its row-select byte, then its eight columns (41_render_engine.md R132 step 2, R134). -/
def renderModule (r : RowIx) (s : State) (m : BitVec 2) : State :=
  columnOrder.foldl (fun s j => renderPixel r (column m j) s) (shiftOut (rowSelect r) s)

/-- The row cursor advances modulo 8 (41_render_engine.md R135). -/
def advanceRow (s : State) : State := s.setRow (s.row + 1)

/-- When the cursor has wrapped: the Vsync carries the current frame number, and only then does the counter advance
modulo 2^32 (41_render_engine.md R136). -/
def notifyFrame (s : State) : State :=
  if s.row = 0 then (s.emit (.vsync s.fc)).setFc (s.fc + 1) else s

/-- `ROW_RENDER()` (41_render_engine.md R132), one atomic step (R137): the row's burst between the two latch edges, then
the cursor, then the frame notification. -/
def rowRender (s : State) : State :=
  notifyFrame (advanceRow (drive .lat true (moduleOrder.foldl (renderModule s.row) (drive .lat false s))))

/-- TICK (41_render_engine.md R130): one row render while ENABLED, else ignored and lost. It raises no fault, and a copy
in flight does not hold it. -/
def execTick (s : State) : Result :=
  unlessStopped s (.next (if s.mode = .enabled then rowRender s else s))

end Sys2Proof.Machine
end

