-- ==== Sys2Proof/Machine/Dispatch.lean ====
section
/-! DEFINITION. One arm per request: which meaning runs it. -/

namespace Sys2Proof.Machine

def exec (i : Instr) (s : State) : Host.Outcome State Fault Refusal :=
  match i with
  | .init => Sys2Proof.Machine.execInit s
  | .writeFrame payload => Sys2Proof.Machine.execWriteFrame payload s
  | .enable => Sys2Proof.Machine.execEnable s
  | .disable => Sys2Proof.Machine.execDisable s
  | .setPeriod divider => Sys2Proof.Machine.execSetPeriod divider s
  | .latch level => Sys2Proof.Machine.execLatch level s
  | .shift byte => Sys2Proof.Machine.execShift byte s
  | .command cmd data => Sys2Proof.Machine.execCommand cmd data s
  | .tick => Sys2Proof.Machine.execTick s

end Sys2Proof.Machine
end

