-- ==== Sys2Proof/Machine/Ports.lean ====
section
/-! DEFINITION. How a word reaches the CORE: the two ports and their check order (60_exceptions.md R206), and the
interleaving of the agents (20_memory.md R61, 60_exceptions.md R217). -/

namespace Sys2Proof.Machine

/-- A word on a port, once the checks on the state have passed: refused by name, or run (60_exceptions.md R206). -/
def presentOn (p : Port) (w : Word) (payload : List Byte) (s : State) : Result :=
  match decodePort p w payload with
  | .error r => .next (refuse r w s)
  | .ok i => exec i s

/-- `HostPort(word, payload)` while it stands first in the interleaving (60_exceptions.md R206). While a copy is in
flight the host is held: the word stays where it is and the copy agent, which always has a step, takes one
(42_lifecycle.md R162). -/
def hostTurn (w : Word) (payload : List Byte) (rest : List Turn) (s : State) : Result :=
  if s.copy.isSome then .next (copyStep s) else presentOn .host w payload (s.setTurns rest)

/-- `TimerPort(word)` (60_exceptions.md R206): also between two copy steps. -/
def timerTurn (w : Word) (rest : List Turn) (s : State) : Result :=
  presentOn .timer w [] (s.setTurns rest)

/-- One step of the interleaving: no step after a fault or a refusal; else the first turn still to come; else, when the
environment has nothing more, the copy agent, which changes nothing when no copy is in flight (log entries 1 to 3). -/
def nextStep (s : State) : Result :=
  unlessStopped s <|
    match s.turns with
    | [] => .next (copyStep s)
    | .copy :: rest => .next (copyStep (s.setTurns rest))
    | .timer w :: rest => timerTurn w rest s
    | .host w payload :: rest => hostTurn w payload rest s

/-- The turn that presents a word on the port it belongs to, with a payload of zeros. -/
def turnOf (w : Word) : Turn :=
  match portOf w with
  | .host => .host w zeroPayload
  | .timer => .timer w

/-- The state in which the next step presents the word: its turn stands first, and nothing holds it back (no earlier
fault or refusal; for the host port, no copy in flight; log entry 15). -/
def presentNext (w : Word) (s : State) : State :=
  { s with
    turns := turnOf w :: s.turns
    fault := none
    refused := none
    copy := match portOf w with
      | .host => none
      | .timer => s.copy }

end Sys2Proof.Machine
end

