-- ==== Sys2Proof/Machine/Wire.lean ====
section
/-! DEFINITION. How the events of the three lines read as sampled bits and bursts (30_encoding.md R79 to R85), and the
formats in which the CORE sends bytes, pixels, command frames and row frames. The CORE's output is the list of events;
this reading of it is for statements. That the panel samples on the rising edge of CLK is the spec's general knowledge
(93_implementation_defined.md GK1; log entry 19). -/

namespace Sys2Proof.Machine

/-- What a reader of the wire has seen so far. -/
structure Wire where
  /-- the level of DAT -/
  dat : Level
  /-- whether the last CLK event drove it low -/
  clkLow : Bool
  /-- the sampled bits, oldest first -/
  bits : List Bool
  /-- the bits of the burst that is open, if one is -/
  burst : Option (List Bool)
  /-- the bursts closed, oldest first -/
  bursts : List (List Bool)
  deriving DecidableEq, Repr

/-- A reader that has seen nothing. Every bit the CORE sends sets DAT before its rising edge (40_protocol_driver.md
R106), so the level DAT starts at is never sampled from it. -/
def Wire.start : Wire := ⟨false, false, [], none, []⟩

/-- Reading one event: DAT is sampled at a rising edge of CLK; LAT 0 opens a burst and the next LAT 1 closes it
(30_encoding.md R79). A LAT 0 inside an open burst opens no other one (log entry 20). -/
def Wire.read (w : Wire) : Event → Wire
  | .line .dat v => { w with dat := v }
  | .line .clk false => { w with clkLow := true }
  | .line .clk true =>
    if w.clkLow then
      { w with clkLow := false, bits := w.bits ++ [w.dat], burst := w.burst.map (· ++ [w.dat]) }
    else w
  | .line .lat false => { w with burst := some (w.burst.getD []) }
  | .line .lat true =>
    match w.burst with
    | some b => { w with burst := none, bursts := w.bursts ++ [b] }
    | none => w
  | .vsync _ => w
  | .timer _ => w

/-- Reading a list of events. -/
def readWire (w : Wire) (es : List Event) : Wire := es.foldl Wire.read w

/-- The sampled bits of a list of events (30_encoding.md R79). -/
def sampledBits (es : List Event) : List Bool := (readWire .start es).bits

/-- The bursts of a list of events (30_encoding.md R79). -/
def burstsOf (es : List Event) : List (List Bool) := (readWire .start es).bursts

/-- The bits of a byte, most significant first (30_encoding.md R80). -/
def byteBits (b : Byte) : List Bool := [7, 6, 5, 4, 3, 2, 1, 0].map fun k => b.getLsbD k

/-- The events of one byte: clock low, data, clock high, for each bit (30_encoding.md R80). -/
def byteEvents (b : Byte) : List Event :=
  (byteBits b).flatMap fun v => [.line .clk false, .line .dat v, .line .clk true]

/-- The events of one pixel bit: data, clock low, clock high (30_encoding.md R81). -/
def pixelEvents (c : Level) : List Event := [.line .dat c, .line .clk false, .line .clk true]

/-- The events of a command frame (30_encoding.md R82). -/
def commandEvents (cmd data : Byte) : List Event :=
  .line .lat false :: byteEvents cmd ++ byteEvents data ++ [.line .lat true]

/-- The columns of one module, in the order sent (41_render_engine.md R133). -/
def moduleColumns (m : BitVec 2) : List ColIx := columnOrder.map (column m)

/-- The 64 bits of a row frame, given the bit of each column: per module the row-select byte and eight pixel bits
(30_encoding.md R83). -/
def rowFrameBits (r : RowIx) (c : ColIx → Bool) : List Bool :=
  moduleOrder.flatMap fun m => byteBits (rowSelect r) ++ (moduleColumns m).map c

/-- The 194 events of a row frame, given the bit of each column (30_encoding.md R83, 41_render_engine.md R138). -/
def rowFrameEvents (r : RowIx) (c : ColIx → Bool) : List Event :=
  .line .lat false ::
    moduleOrder.flatMap (fun m => byteEvents (rowSelect r) ++ (moduleColumns m).flatMap fun x => pixelEvents (c x)) ++
    [.line .lat true]

/-- Whether an event is a line drive (00_scope.md R10). -/
def Event.isLine : Event → Bool
  | .line _ _ => true
  | .vsync _ => false
  | .timer _ => false

/-- The frame numbers notified, oldest first (00_scope.md R10). -/
def vsyncs (es : List Event) : List FrameNumber :=
  es.filterMap fun
    | .vsync n => some n
    | .line _ _ => none
    | .timer _ => none

/-- The value of column `x`'s pixel bit in a burst that is a row frame of row `r`: sampled bit `16m + 8 + j` with
`x = 8m + j`, where the frame's first eight bits are the row-select byte of `r` (30_encoding.md R83). -/
def framePixel (r : RowIx) (x : ColIx) (burst : List Bool) : Bool :=
  burst.take 8 == byteBits (rowSelect r) && burst.getD (16 * (x.toNat / 8) + 8 + x.toNat % 8) false

/-- How many of the bursts light pixel `(r, x)`: the renders in which its bit was 1 (41_render_engine.md R139). -/
def litCount (r : RowIx) (x : ColIx) (bursts : List (List Bool)) : Nat :=
  bursts.countP (framePixel r x)

end Sys2Proof.Machine
end

