-- ==== Sys2Proof/Safety.lean ====
section
/-! DEFINITION. What claims about the CORE are stated in: when a port takes a word, which states the spec's invariants
hold in, which requests fault, and runs of turns. -/

namespace Sys2Proof.Machine

/-- No fault and no refusal is recorded: agents may step (10_state.md R30). -/
abbrev Running (s : State) : Prop := s.fault = none ∧ s.refused = none

/-- The host may step: no mark, and no copy in flight (60_exceptions.md R206). -/
abbrev HostReady (s : State) : Prop := Running s ∧ s.copy = none

/-- The pixel arrays are in canonical form. -/
abbrev ArraysWf (s : State) : Prop := s.fb.wf ∧ s.acc.wf

/-- A copy order lists every index once (10_state.md R33). -/
abbrev OrderComplete (c : Copy) : Prop := c.order.toList.Nodup

/-- The invariants of 10_state.md R40 and R33: nothing is in flight before INIT, and a copy order is a permutation; and
the canonical form of the arrays. -/
abbrev Inv (s : State) : Prop :=
  ArraysWf s ∧ (s.mode = .uninit → s.copy = none) ∧ ∀ c ∈ s.copy, OrderComplete c

/-- The fault a request raises in a state whose host (or timer) may step, if any: NOT_INITIALIZED before the request's
own check (60_exceptions.md R201, R206 to R212). -/
def faultOf (i : Instr) (m : Mode) : Option FaultCode :=
  match i, m with
  | .init, .uninit => none
  | .init, .disabled => some .reinit
  | .init, .enabled => some .reinit
  | .writeFrame _, .uninit => some .notInitialized
  | .writeFrame p, .disabled => if p.length = 256 then none else some .badFrameSize
  | .writeFrame p, .enabled => if p.length = 256 then none else some .badFrameSize
  | .enable, .uninit => some .notInitialized
  | .enable, .disabled => none
  | .enable, .enabled => some .enableWhileEnabled
  | .disable, .uninit => some .notInitialized
  | .disable, .disabled => some .disableWhileDisabled
  | .disable, .enabled => none
  | .setPeriod _, .uninit => some .notInitialized
  | .setPeriod _, .disabled => none
  | .setPeriod _, .enabled => none
  | .latch _, .uninit => some .notInitialized
  | .latch _, .disabled => none
  | .latch _, .enabled => some .busBusy
  | .shift _, .uninit => some .notInitialized
  | .shift _, .disabled => none
  | .shift _, .enabled => some .busBusy
  | .command _ _, .uninit => some .notInitialized
  | .command _ _, .disabled => none
  | .command _ _, .enabled => some .busBusy
  | .tick, .uninit => none
  | .tick, .disabled => none
  | .tick, .enabled => none

/-- The output bit of pixel `(r, x)` if it were updated now: 1 iff the unwrapped sum exceeds 255 (41_render_engine.md
R131). -/
def pixelBit (s : State) (r : RowIx) (x : ColIx) : Bool :=
  decide (255 < (s.readAcc (cellIndex r x)).toNat + (s.readFb (cellIndex r x)).toNat)

/-- The byte that a copy writes to index `i`, if it has reached it: the payload byte of every index among the first
`next` of the order, and the byte of the frame before it otherwise (20_memory.md R57). -/
def torn (before : Index → Byte) (c : Copy) (i : Index) : Byte :=
  if i ∈ c.order.toList.take c.next.val then payloadAt c.payload i else before i

/-- From `s` to `t` the copy agent takes one step of the copy `c`: the cell `ORDER[NEXT]` takes its payload byte, every
other cell reads as before, the copy ends after its 256th byte and else goes on with the next, and no other field
changes (42_lifecycle.md R162). -/
def CopyAdvances (c : Copy) (s t : State) : Prop :=
  t = { s with fb := t.fb, copy := t.copy } ∧
  (∀ i, t.readFb i = if i = c.order[c.next.val] then payloadAt c.payload i else s.readFb i) ∧
  (c.next.val = 255 → t.copy = none) ∧
  (c.next.val < 255 → ∃ d, t.copy = some d ∧ d.payload = c.payload ∧ d.order = c.order ∧ d.next.val = c.next.val + 1)

/-- The framebuffer is the frame before the copy with the bytes already copied in place (20_memory.md R57). -/
def TornFrom (before : Index → Byte) (s : State) : Prop :=
  ∀ c, s.copy = some c → ∀ i, s.readFb i = torn before c i

/-- The level the CORE drives on a line (10_state.md R29). -/
def State.level (s : State) : Line → Level
  | .dat => s.dat
  | .clk => s.clk
  | .lat => s.lat

/-- The level an event drives a line to, if it drives it. -/
def Event.drives (l : Line) : Event → Option Level
  | .line k v => if k = l then some v else none
  | .vsync _ => none
  | .timer _ => none

/-- The level of the last drive of a line in a list of events, if there is one. -/
def lastDrive (l : Line) (es : List Event) : Option Level := (es.filterMap (Event.drives l)).getLast?

/-- Every line is at the level of its last drive in the trace (40_protocol_driver.md R100: only `Drive` writes a line,
and it records the drive). -/
def LinesFollowTrace (s : State) : Prop := ∀ l v, lastDrive l s.trace = some v → s.level l = v

/-- How many line drives a list of events holds. -/
def lineCount (es : List Event) : Nat := es.countP Event.isLine

/-- The word TICK (30_encoding.md R71). -/
def tickWord : Word := 0x00000010

/-- `k` TICKs (30_encoding.md R86, `TICK*k`). -/
def ticks (k : Nat) : List Turn := List.replicate k (.timer tickWord)

/-- `k` steps of the machine, stopping at the first stop: `Host.Core.run` of `Sys2Proof.core`. -/
def runSteps : Nat → State → Result
  | 0, s => .next s
  | k + 1, s =>
    match step s with
    | .next t => runSteps k t
    | .fault f => .fault f
    | .refused r => .refused r

/-- Running requests back to back, stopping at the first stop. -/
def execAll : List Instr → State → Result
  | [], s => .next s
  | i :: is, s =>
    match exec i s with
    | .next t => execAll is t
    | .fault f => .fault f
    | .refused r => .refused r

end Sys2Proof.Machine
end

