-- ==== Sys2Proof/Certificates/Slice0/Obligations.lean ====
section
/-! DEFINITION. The statements for the provers, from the numbered rules of the spec. -/

open Sys2Proof Sys2Proof.Machine

/-! ## Encoding -/

/-- 30_encoding.md R73, R74, R77: what the encoding tables write, the decoder reads back, for every request and every
operand. -/
def Obligations.DecodeEncodeRoundTrip : Prop :=
  ∀ i : Instr, decode (encodeWord i) (encodePayload i) = .ok i

/-- 30_encoding.md R73: a word a port accepts is the word of the one request it stands for. -/
def Obligations.AcceptedWordIsItsRequestsWord : Prop :=
  ∀ (p : Port) (w : Word) (payload : List Byte) (i : Instr),
    decodePort p w payload = .ok i → encodeWord i = w ∧ i.opcode.port = p

/-- 30_encoding.md R76: exactly the reserved operation codes are refused with RESERVED_OPCODE, on either port. -/
def Obligations.ReservedOpcodesRefused : Prop :=
  ∀ (p : Port) (w : Word) (payload : List Byte),
    decodePort p w payload = .error .reservedOpcode ↔
      w.toNat % 256 = 0x00 ∨ (0x09 ≤ w.toNat % 256 ∧ w.toNat % 256 ≤ 0x0F) ∨ 0x11 ≤ w.toNat % 256

/-- 30_encoding.md R71: what the timer port does with every word, and TICK's code on the host port. -/
def Obligations.TimerPortTakesOnlyTick : Prop :=
  ∀ (w : Word) (payload : List Byte),
    (w = 0x00000010 → decodePort .timer w payload = .ok .tick) ∧
    (0x01 ≤ w.toNat % 256 ∧ w.toNat % 256 ≤ 0x08 → decodePort .timer w payload = .error .wrongPort) ∧
    (w.toNat % 256 = 0x10 ∧ w.toNat / 256 ≠ 0 → decodePort .timer w payload = .error .nonzeroMbz) ∧
    (w.toNat % 256 = 0x00 ∨ (0x09 ≤ w.toNat % 256 ∧ w.toNat % 256 ≤ 0x0F) ∨ 0x11 ≤ w.toNat % 256 →
      decodePort .timer w payload = .error .reservedOpcode) ∧
    (w.toNat % 256 = 0x10 → decodePort .host w payload = .error .wrongPort)

/-- 30_encoding.md R75, in the check order of 60_exceptions.md R206: on its own port a word of a defined code is refused
with NONZERO_MBZ exactly when a must-be-zero bit is 1. -/
def Obligations.MustBeZeroBitsRefused : Prop :=
  (∀ (w : Word) (payload : List Byte),
    decodePort .host w payload = .error .nonzeroMbz ↔
      (0x01 ≤ w.toNat % 256 ∧ w.toNat % 256 ≤ 0x04 ∧ w.toNat / 2 ^ 8 ≠ 0) ∨
      (w.toNat % 256 = 0x06 ∧ w.toNat / 2 ^ 9 ≠ 0) ∨
      (w.toNat % 256 = 0x07 ∧ w.toNat / 2 ^ 16 ≠ 0) ∨
      (w.toNat % 256 = 0x08 ∧ w.toNat / 2 ^ 24 ≠ 0)) ∧
  ∀ (w : Word) (payload : List Byte),
    decodePort .timer w payload = .error .nonzeroMbz ↔ w.toNat % 256 = 0x10 ∧ w.toNat / 2 ^ 8 ≠ 0

/-- 30_encoding.md R74: the operands a word gives, as numbers. -/
def Obligations.OperandsAreUnsignedFields : Prop :=
  ∀ (w : Word) (payload : List Byte),
    (∀ d, decodePort .host w payload = .ok (.setPeriod d) → d.toNat = w.toNat / 2 ^ 8) ∧
    (∀ l, decodePort .host w payload = .ok (.latch l) → l = w.toNat.testBit 8) ∧
    (∀ b, decodePort .host w payload = .ok (.shift b) → b.toNat = w.toNat / 2 ^ 8 % 256) ∧
    (∀ c d, decodePort .host w payload = .ok (.command c d) →
      c.toNat = w.toNat / 2 ^ 8 % 256 ∧ d.toNat = w.toNat / 2 ^ 16 % 256) ∧
    (∀ q, decodePort .host w payload = .ok (.writeFrame q) → q = payload)

/-- 95_test_vectors.md V20 to V26, V39 to V45: words the spec writes out, with the requests they stand for. -/
def Obligations.SampleWordsDecode : Prop :=
  decode 0x00000001 [] = .ok .init ∧
  decode 0x00000002 [0x80, 0xFF] = .ok (.writeFrame [0x80, 0xFF]) ∧
  decode 0x00000003 [] = .ok .enable ∧
  decode 0x00000004 [] = .ok .disable ∧
  decode 0x0003E805 [] = .ok (.setPeriod 1000) ∧
  decode 0x00000106 [] = .ok (.latch true) ∧
  decode 0x0000A507 [] = .ok (.shift 0xA5) ∧
  decode 0x00010C08 [] = .ok (.command 0x0C 0x01) ∧
  decode 0x00000010 [] = .ok .tick

/-! ## The step and the request prelude -/

/-- 60_exceptions.md R206, 20_memory.md R61: when a port's word is the next turn and the port may take it, the step is
the decoded request, run with that turn taken from the interleaving. -/
def Obligations.StepRunsDecodedRequest : Prop :=
  (∀ (s : State) (w : Word) (payload : List Byte) (rest : List Turn) (i : Instr),
    HostReady s → s.turns = .host w payload :: rest → decodePort .host w payload = .ok i →
      step s = exec i { s with turns := rest }) ∧
  ∀ (s : State) (w : Word) (rest : List Turn) (i : Instr),
    Running s → s.turns = .timer w :: rest → decodePort .timer w [] = .ok i →
      step s = exec i { s with turns := rest }

/-- The model's presentation of a table word (log entry 15): the next step runs its request. -/
def Obligations.PresentedWordRunsNext : Prop :=
  ∀ (s : State) (w : Nat) (i : Instr), decodeTableWord 32 w = some i →
    step (s.withFetchWord 32 w) =
      exec i { s with fault := none, refused := none, copy := if i = .tick then s.copy else none }

/-- 60_exceptions.md R204: a refused word records its reason and itself, and nothing else happens. -/
def Obligations.RefusedWordIsRecorded : Prop :=
  (∀ (s : State) (w : Word) (payload : List Byte) (rest : List Turn) (r : RefusalReason),
    HostReady s → s.turns = .host w payload :: rest → decodePort .host w payload = .error r →
      step s = .next { s with turns := rest, refused := some ⟨r, w⟩ }) ∧
  ∀ (s : State) (w : Word) (rest : List Turn) (r : RefusalReason),
    Running s → s.turns = .timer w :: rest → decodePort .timer w [] = .error r →
      step s = .next { s with turns := rest, refused := some ⟨r, w⟩ }

/-- 70_reset_and_hazards.md R247, 10_state.md R40 item 4, 42_lifecycle.md R162: while a copy is in flight a host word is
not accepted; it stays the next turn while the copy agent takes a step, and no request but TICK can be run. That a held
word gives the step to the copy agent is the model's interleaving (log entry 1), and the stop `hostHeld` is its name for
'no step' (log entry 16). -/
def Obligations.CopyHoldsTheHost : Prop :=
  ∀ (s : State) (c : Copy), Running s → s.copy = some c →
    (∀ (w : Word) (payload : List Byte) (rest : List Turn), s.turns = .host w payload :: rest →
      ∃ t, step s = .next t ∧ t.turns = s.turns ∧ CopyAdvances c s t) ∧
    ∀ i : Instr, i ≠ .tick → exec i s = .fault .hostHeld

/-- 10_state.md R30, 60_exceptions.md R202 to R204: with a mark set no step is taken and no request runs (the model's
stops there are log entry 3); and the model refuses no request. That a step answers a next state in EVERY unmarked state
is the model's choice and no rule: with no turn to come, or a copy turn, and no copy in flight, the spec gives no agent a
step (42_lifecycle.md R162, 60_exceptions.md R217), and the model's step changes nothing but the turns (log entry 2). -/
def Obligations.StepsExactlyWhileUnmarked : Prop :=
  (∀ s : State, (∃ t, step s = .next t) ↔ s.fault = none ∧ s.refused = none) ∧
  (∀ (i : Instr) (s t : State), exec i s = .next t → s.fault = none ∧ s.refused = none) ∧
  ∀ (i : Instr) (s : State) (r : Refusal), exec i s ≠ .refused r

/-- 60_exceptions.md R202, R204: a step that records a fault or a refusal changes nothing else of the CORE, and no step
and no request follows it. -/
def Obligations.FaultsAndRefusalsArePrecise : Prop :=
  ∀ s t : State, step s = .next t → t.fault ≠ none ∨ t.refused ≠ none →
    t = { s with turns := t.turns, fault := t.fault, refused := t.refused } ∧
    (t.fault = none ∨ t.refused = none) ∧
    (∀ u, step t ≠ .next u) ∧ ∀ (i : Instr) (u : State), exec i t ≠ .next u

/-- 60_exceptions.md R201: the numbers of the codes, and exactly when each is raised by a request the prelude takes. -/
def Obligations.FaultCodesAsTabled : Prop :=
  (FaultCode.number .notInitialized = 0x01 ∧ FaultCode.number .reinit = 0x02 ∧
    FaultCode.number .enableWhileEnabled = 0x03 ∧ FaultCode.number .disableWhileDisabled = 0x04 ∧
    FaultCode.number .badFrameSize = 0x05 ∧ FaultCode.number .busBusy = 0x06) ∧
  ∀ (i : Instr) (s : State) (c : FaultCode), HostReady s →
    (exec i s = .next { s with fault := some ⟨c, encodeWord i⟩ } ↔
      (c = .notInitialized ∧ i ≠ .init ∧ i ≠ .tick ∧ s.mode = .uninit) ∨
      (c = .reinit ∧ i = .init ∧ s.mode ≠ .uninit) ∨
      (c = .enableWhileEnabled ∧ i = .enable ∧ s.mode = .enabled) ∨
      (c = .disableWhileDisabled ∧ i = .disable ∧ s.mode = .disabled) ∨
      (c = .badFrameSize ∧ (∃ p, i = .writeFrame p ∧ p.length ≠ 256) ∧ s.mode ≠ .uninit) ∨
      (c = .busBusy ∧ ((∃ l, i = .latch l) ∨ (∃ b, i = .shift b) ∨ ∃ a b, i = .command a b) ∧ s.mode = .enabled))

/-- 60_exceptions.md R207: before INIT every host request but INIT faults with NOT_INITIALIZED; a TICK is ignored. -/
def Obligations.NothingBeforeInit : Prop :=
  (∀ (i : Instr) (s : State), HostReady s → s.mode = .uninit → i ≠ .init → i ≠ .tick →
    exec i s = .next { s with fault := some ⟨.notInitialized, encodeWord i⟩ }) ∧
  ∀ s : State, Running s → s.mode = .uninit → exec .tick s = .next s

/-! ## Lifecycle requests -/

/-- 10_state.md R38, 70_reset_and_hazards.md R230: the power-on values the spec gives. -/
def Obligations.PowerOnState : Prop :=
  State.reset.mode = .uninit ∧ State.reset.copy = none ∧ State.reset.fault = none ∧ State.reset.refused = none ∧
    State.reset.trace = []

/-- 10_state.md R38 and its last paragraph: the values the spec leaves unspecified before INIT never matter. Two machines
that differ in them only answer each request alike, and INIT leaves no difference that a read of an array or a field
shows. So no statement can rest on the model's choice of those values (log entries 5 and 6). -/
def Obligations.UnspecifiedValuesNeverMatter : Prop :=
  ∀ (i : Instr) (s u : State), HostReady s → s.mode = .uninit →
    u = { s with
      row := u.row, fc := u.fc, period := u.period, dat := u.dat, clk := u.clk, lat := u.lat
      fb := u.fb, acc := u.acc } →
    (i = .init → ∃ t v, exec i s = .next t ∧ exec i u = .next v ∧ v = { t with fb := v.fb, acc := v.acc } ∧
      ∀ k, v.readFb k = t.readFb k ∧ v.readAcc k = t.readAcc k) ∧
    (i ≠ .init → ∃ f, exec i s = .next { s with fault := f } ∧ exec i u = .next { u with fault := f })

/-- 42_lifecycle.md R160, 10_state.md R39, 60_exceptions.md R208: what INIT leaves, whatever the seed drawn
(`Config.seed`, a free value) and `P_INIT` (a parameter) are; and REINIT. -/
def Obligations.InitResult : Prop :=
  ∀ s : State, HostReady s →
    (s.mode = .uninit →
      ∃ t, exec .init s = .next t ∧
        t.mode = .disabled ∧ t.row = 0 ∧ t.fc = 0 ∧ t.period = Config.pInit ∧
        t.dat = false ∧ t.clk = true ∧ t.lat = true ∧
        (∀ i, t.readFb i = 0) ∧ (∀ i, t.readAcc i = Config.seed s.draws i) ∧
        t.copy = none ∧ t.fault = none ∧ t.refused = none ∧
        t.trace = s.trace ++
          [.line .dat false, .line .clk true, .line .lat true, .timer (.prepare Config.pInit)] ∧
        t.turns = s.turns) ∧
    (s.mode ≠ .uninit → exec .init s = .next { s with fault := some ⟨.reinit, 0x00000001⟩ })

/-- 42_lifecycle.md R161, 60_exceptions.md R211: WRITE_FRAME captures the payload with an order that is a permutation
of all indices (the free value of `Config.copyPick`), and touches nothing else of the CORE; and BAD_FRAME_SIZE. -/
def Obligations.WriteFrameResult : Prop :=
  ∀ (s : State) (p : List Byte), HostReady s → s.mode ≠ .uninit →
    (p.length = 256 →
      ∃ c t, exec (.writeFrame p) s = .next t ∧ t = { s with copy := some c, draws := t.draws } ∧
        c.payload.toList = p ∧ c.order.toList.Perm allIndices ∧ c.next.val = 0) ∧
    (p.length ≠ 256 → exec (.writeFrame p) s = .next { s with fault := some ⟨.badFrameSize, 0x00000002⟩ })

/-- 42_lifecycle.md R163, 60_exceptions.md R209. -/
def Obligations.EnableResult : Prop :=
  ∀ s : State, HostReady s →
    (s.mode = .disabled →
      exec .enable s = .next { s with mode := .enabled, trace := s.trace ++ [.timer .attach] }) ∧
    (s.mode = .enabled → exec .enable s = .next { s with fault := some ⟨.enableWhileEnabled, 0x00000003⟩ })

/-- 42_lifecycle.md R164, 60_exceptions.md R210. -/
def Obligations.DisableResult : Prop :=
  ∀ s : State, HostReady s →
    (s.mode = .enabled →
      exec .disable s = .next { s with mode := .disabled, trace := s.trace ++ [.timer .detach] }) ∧
    (s.mode = .disabled → exec .disable s = .next { s with fault := some ⟨.disableWhileDisabled, 0x00000004⟩ })

/-- 42_lifecycle.md R165: every divider, in DISABLED and in ENABLED. -/
def Obligations.SetPeriodResult : Prop :=
  ∀ (s : State) (d : Period), HostReady s → s.mode ≠ .uninit →
    exec (.setPeriod d) s = .next { s with period := d, trace := s.trace ++ [.timer (.period d)] }

/-! ## The panel protocol driver -/

/-- 40_protocol_driver.md R101, R100, 60_exceptions.md R212. -/
def Obligations.LatchResult : Prop :=
  ∀ (s : State) (l : Level), HostReady s →
    (s.mode = .disabled →
      exec (.latch l) s = .next { s with lat := l, trace := s.trace ++ [.line .lat l] }) ∧
    (s.mode = .enabled →
      exec (.latch l) s = .next { s with fault := some ⟨.busBusy, if l then 0x00000106 else 0x00000006⟩ })

/-- 40_protocol_driver.md R103, R102, 60_exceptions.md R212: 24 events, most significant bit first. -/
def Obligations.ShiftResult : Prop :=
  ∀ (s : State) (b : Byte), HostReady s →
    (s.mode = .disabled →
      exec (.shift b) s = .next { s with
        dat := b.getLsbD 0
        clk := true
        trace := s.trace ++ [7, 6, 5, 4, 3, 2, 1, 0].flatMap fun k =>
          [.line .clk false, .line .dat (b.getLsbD k), .line .clk true] }) ∧
    (s.mode = .enabled → exec (.shift b) s = .next { s with fault := some ⟨.busBusy, encodeWord (.shift b)⟩ })

/-- 40_protocol_driver.md R104, 60_exceptions.md R212: one frame of 50 events. -/
def Obligations.CommandResult : Prop :=
  ∀ (s : State) (c d : Byte), HostReady s →
    (s.mode = .disabled →
      exec (.command c d) s = .next { s with
        dat := d.getLsbD 0
        clk := true
        lat := true
        trace := s.trace ++ [.line .lat false] ++
          ([7, 6, 5, 4, 3, 2, 1, 0].flatMap fun k =>
            [.line .clk false, .line .dat (c.getLsbD k), .line .clk true]) ++
          ([7, 6, 5, 4, 3, 2, 1, 0].flatMap fun k =>
            [.line .clk false, .line .dat (d.getLsbD k), .line .clk true]) ++ [.line .lat true] }) ∧
    (s.mode = .enabled →
      exec (.command c d) s = .next { s with fault := some ⟨.busBusy, encodeWord (.command c d)⟩ })

/-- 40_protocol_driver.md R109: COMMAND is the same as LATCH 0, SHIFT, SHIFT, LATCH 1 while DISABLED. -/
def Obligations.CommandEqualsFourRequests : Prop :=
  ∀ (s : State) (c d : Byte), HostReady s → s.mode = .disabled →
    ∃ t, exec (.command c d) s = .next t ∧ execAll [.latch false, .shift c, .shift d, .latch true] s = .next t

/-- 30_encoding.md R79, R80: whatever the trace before it, a SHIFT is eight sampled bits, most significant first. -/
def Obligations.ShiftSamplesItsByte : Prop :=
  ∀ (s : State) (b : Byte), HostReady s → s.mode = .disabled →
    ∃ t, exec (.shift b) s = .next t ∧
      sampledBits t.trace = sampledBits s.trace ++
        [b.getLsbD 7, b.getLsbD 6, b.getLsbD 5, b.getLsbD 4, b.getLsbD 3, b.getLsbD 2, b.getLsbD 1, b.getLsbD 0]

/-- 30_encoding.md R79, R82: the events of a COMMAND are one burst of 16 sampled bits, `cmd[7..0]` then
`data[7..0]`, and no bit outside it. -/
def Obligations.CommandIsOneBurst : Prop :=
  ∀ (s : State) (c d : Byte), HostReady s → s.mode = .disabled →
    ∃ t es burst, exec (.command c d) s = .next t ∧ t.trace = s.trace ++ es ∧
      es.head? = some (.line .lat false) ∧ es.getLast? = some (.line .lat true) ∧
      burstsOf es = [burst] ∧ sampledBits es = burst ∧ burst.length = 16 ∧
      (∀ k < 8, burst[k]? = some (c.getLsbD (7 - k))) ∧ ∀ k < 8, burst[8 + k]? = some (d.getLsbD (7 - k))

/-! ## The render engine -/

/-- 41_render_engine.md R131, 10_state.md R24: the pixel update's arithmetic. -/
def Obligations.PixelUpdateArithmetic : Prop :=
  ∀ a f : Byte,
    (pixelSum a f).toNat = a.toNat + f.toNat ∧
    (pixelWrapped a f).toNat = (a.toNat + f.toNat) % 256 ∧
    (pixelCarry a f = true ↔ a.toNat + f.toNat > 255)

/-- 41_render_engine.md R130, R132 to R136: a TICK taken while ENABLED renders the row; otherwise it is ignored. It says
every field: those not named keep their values. -/
def Obligations.TickResult : Prop :=
  ∀ s : State, Running s →
    (s.mode = .enabled →
      ∃ t, exec .tick s = .next t ∧
        t = { s with
          acc := t.acc
          dat := pixelBit s s.row 31
          clk := true
          lat := true
          row := s.row + 1
          fc := if s.row = 7 then s.fc + 1 else s.fc
          trace := s.trace ++ rowFrameEvents s.row (pixelBit s s.row) ++
            if s.row = 7 then [.vsync s.fc] else [] } ∧
        (∀ x, (t.readAcc (cellIndex s.row x)).toNat =
          ((s.readAcc (cellIndex s.row x)).toNat + (s.readFb (cellIndex s.row x)).toNat) % 256) ∧
        ∀ r x, r ≠ s.row → t.readAcc (cellIndex r x) = s.readAcc (cellIndex r x)) ∧
    (s.mode ≠ .enabled → exec .tick s = .next s)

/-- 30_encoding.md R83, R84, 41_render_engine.md R133, R134: a row render is one burst of 64 sampled bits, at bit
`16m + k` the row-select byte and at bit `16m + 8 + j` the output bit of column `8m + j`. -/
def Obligations.RowFrameOnTheWire : Prop :=
  ∀ s : State, Running s → s.mode = .enabled →
    ∃ t es burst, exec .tick s = .next t ∧
      t.trace = s.trace ++ es ++ (if s.row = 7 then [.vsync s.fc] else []) ∧
      es.head? = some (.line .lat false) ∧ es.getLast? = some (.line .lat true) ∧
      burstsOf es = [burst] ∧ sampledBits es = burst ∧ burst.length = 64 ∧
      (∀ m < 4, ∀ k < 8, burst[16 * m + k]? = some ((s.row.toNat + 1).testBit (7 - k))) ∧
      ∀ m < 4, ∀ j < 8, burst[16 * m + 8 + j]? = some (pixelBit s s.row (BitVec.ofNat 5 (8 * m + j)))

/-- 41_render_engine.md R138: 194 line drives, and one Vsync after row 7. -/
def Obligations.RowRenderEventCount : Prop :=
  ∀ s : State, Running s → s.mode = .enabled →
    ∃ t es vs, exec .tick s = .next t ∧ t.trace = s.trace ++ (es ++ vs) ∧ es.length = 194 ∧ lineCount es = 194 ∧
      es.head? = some (.line .lat false) ∧ es.getLast? = some (.line .lat true) ∧
      vs = (if s.row = 7 then [.vsync s.fc] else [])

/-- 41_render_engine.md R131 (case `f = 0`), 70_reset_and_hazards.md R232: a black row sends no lit pixel and leaves the
accumulators as they are, whatever they hold. -/
def Obligations.BlackRowStaysDark : Prop :=
  ∀ s : State, Running s → s.mode = .enabled → (∀ x, s.readFb (cellIndex s.row x) = 0) →
    ∃ t, exec .tick s = .next t ∧ (∀ i, t.readAcc i = s.readAcc i) ∧
      t.trace = s.trace ++ rowFrameEvents s.row (fun _ => false) ++ if s.row = 7 then [.vsync s.fc] else []

/-- 41_render_engine.md R135, R136, R140: eight TICKs while ENABLED, from any row, bring the cursor back, advance the
frame counter once and notify exactly once, with the counter's value before. -/
def Obligations.EightTicksMakeOneFrame : Prop :=
  ∀ (s : State) (rest : List Turn), Running s → s.mode = .enabled → s.turns = ticks 8 ++ rest →
    ∃ t, runSteps 8 s = .next t ∧ t.row = s.row ∧ t.fc = s.fc + 1 ∧
      vsyncs t.trace = vsyncs s.trace ++ [s.fc] ∧ t.mode = .enabled ∧ t.turns = rest

/-- 41_render_engine.md R139: the pulse-density law, for every pixel, from every row and every accumulator value: after
`k` frames of TICKs the accumulator holds `(a0 + k*b) mod 256`, and the pixel's bit was 1 in `floor((a0 + k*b)/256)` of
the row's bursts. -/
def Obligations.PulseDensityLaw : Prop :=
  ∀ (k : Nat) (s : State) (rest : List Turn) (r : RowIx) (x : ColIx),
    Running s → s.mode = .enabled → s.turns = ticks (8 * k) ++ rest →
      ∃ t es, runSteps (8 * k) s = .next t ∧ t.trace = s.trace ++ es ∧
        (t.readAcc (cellIndex r x)).toNat =
          ((s.readAcc (cellIndex r x)).toNat + k * (s.readFb (cellIndex r x)).toNat) % 256 ∧
        litCount r x (burstsOf es) =
          ((s.readAcc (cellIndex r x)).toNat + k * (s.readFb (cellIndex r x)).toNat) / 256

/-- 20_memory.md R51: the linear index, row-major. -/
def Obligations.IndexIsRowMajor : Prop :=
  (∀ (r : RowIx) (c : ColIx), (cellIndex r c).toNat = r.toNat * 32 + c.toNat ∧
    indexRow (cellIndex r c) = r ∧ indexCol (cellIndex r c) = c) ∧
  ∀ i : Index, (indexRow i).toNat = i.toNat / 32 ∧ (indexCol i).toNat = i.toNat % 32

/-! ## The framebuffer copy -/

/-- 42_lifecycle.md R162: a copy step writes one payload byte, advances the count, and ends the copy at 256, in each of
the three ways the copy agent comes to move: its own turn, no turn to come, and a host word that its copy holds (log
entries 1 and 16). -/
def Obligations.CopyStepWritesOneByte : Prop :=
  ∀ (s : State) (c : Copy), Running s → s.copy = some c →
    (∀ rest, s.turns = .copy :: rest → ∃ t, step s = .next t ∧ CopyAdvances c { s with turns := rest } t) ∧
    (s.turns = [] → ∃ t, step s = .next t ∧ CopyAdvances c s t) ∧
    ∀ w payload rest, s.turns = .host w payload :: rest → ∃ t, step s = .next t ∧ CopyAdvances c s t

/-- 42_lifecycle.md R161, R162, 20_memory.md R62: a WRITE_FRAME whose copy is not interrupted is in flight until its
256th copy step and leaves the payload in the framebuffer, whatever order was drawn; nothing else of the CORE changes. -/
def Obligations.WriteFrameCompletes : Prop :=
  ∀ (s : State) (p : List Byte) (rest : List Turn),
    HostReady s → s.mode ≠ .uninit → p.length = 256 →
    s.turns = .host 0x00000002 p :: (List.replicate 256 .copy ++ rest) →
      (∀ k < 256, ∃ u, runSteps (1 + k) s = .next u ∧ u.copy ≠ none) ∧
      ∃ t, runSteps 257 s = .next t ∧
        t = { s with fb := t.fb, turns := rest, draws := t.draws } ∧
        ∀ i : Index, some (t.readFb i) = p[i.toNat]?

/-- 20_memory.md R57, R58: tearing is bounded. While a copy is in flight, every cell reads as the payload byte if its
index has been copied and as the byte before the WRITE_FRAME otherwise, across every step any agent can take; and when
the copy ends every cell reads as the payload. -/
def Obligations.TearingIsBounded : Prop :=
  ∀ (s t : State) (c : Copy) (before : Index → Byte),
    Inv s → s.copy = some c → TornFrom before s → step s = .next t →
      TornFrom before t ∧ (t.copy = none → ∀ i, t.readFb i = payloadAt c.payload i) ∧
        ∀ d, t.copy = some d → d.payload = c.payload ∧ d.order = c.order

/-- 42_lifecycle.md R166: copying a payload equal to the framebuffer changes no cell of it, whatever steps fall in
between. -/
def Obligations.RewritingTheSameFrameChangesNothing : Prop :=
  ∀ (s t : State) (c : Copy), Inv s → s.copy = some c → (∀ i, s.readFb i = payloadAt c.payload i) →
    step s = .next t → t.fb = s.fb

/-- 92_eei_decisions.md D16: the model leaves out no copy order: every permutation is some choice of the free value. -/
def Obligations.EveryCopyOrderIsAdmitted : Prop :=
  ∀ l : List Index, l.Perm allIndices → ∃ pick : Nat → Nat, shuffle pick allIndices = l

/-! ## Whole-machine rules -/

/-- 10_state.md R40 (items 1 and 3), R33: the invariants hold at power-on. -/
def Obligations.InvariantsAtReset : Prop := Inv State.reset

/-- 10_state.md R40 (items 1 and 3), R33: every step keeps the invariants: the arrays stay in canonical form, nothing is
in flight before INIT, every copy order lists each index once. -/
def Obligations.InvariantsKept : Prop := ∀ s t : State, Inv s → step s = .next t → Inv t

/-- 40_protocol_driver.md R100, 10_state.md R29: at power-on no drive is recorded. -/
def Obligations.LinesFollowTraceAtReset : Prop := LinesFollowTrace State.reset

/-- 40_protocol_driver.md R100, 10_state.md R29: only `Drive` writes a line and every drive is recorded, so across every
step each line stays at the level of its last drive in the trace. -/
def Obligations.LinesFollowTraceKept : Prop :=
  ∀ s t : State, LinesFollowTrace s → step s = .next t → LinesFollowTrace t

/-- 10_state.md R35: the trace is a list to which steps only append. -/
def Obligations.TraceOnlyGrows : Prop := ∀ s t : State, step s = .next t → ∃ es, t.trace = s.trace ++ es

/-- 60_exceptions.md R220, 10_state.md R25: the mode changes in three ways only, so it is never UNINIT again. -/
def Obligations.ModeTransitions : Prop :=
  (∀ (i : Instr) (s t : State), exec i s = .next t →
    t.mode = if i = .init ∧ s.mode = .uninit then .disabled
      else if i = .enable ∧ s.mode = .disabled then .enabled
      else if i = .disable ∧ s.mode = .enabled then .disabled
      else s.mode) ∧
  ∀ s t : State, step s = .next t → s.mode ≠ .uninit → t.mode ≠ .uninit

/-- 10_state.md R36, R37, 20_memory.md R60: no host request but INIT reaches the accumulators, the row cursor, the frame
counter or the framebuffer. -/
def Obligations.HostCannotReachRenderState : Prop :=
  ∀ (i : Instr) (s t : State), exec i s = .next t → i ≠ .init → i ≠ .tick →
    t.acc = s.acc ∧ t.row = s.row ∧ t.fc = s.fc ∧ t.fb = s.fb

/-- 10_state.md R31: after INIT only a copy step writes the framebuffer; no row render does. -/
def Obligations.OnlyTheCopyWritesTheFramebuffer : Prop :=
  ∀ s t : State, step s = .next t → s.mode ≠ .uninit → s.copy = none → t.fb = s.fb

/-- 10_state.md R40 item 5, R26, R27: while DISABLED no step changes the row cursor, the frame counter or an
accumulator. -/
def Obligations.FrozenWhileDisabled : Prop :=
  ∀ s t : State, step s = .next t → s.mode = .disabled → t.row = s.row ∧ t.fc = s.fc ∧ t.acc = s.acc

/-- 10_state.md R28: no request reads `PERIOD`: with another period it does the same to everything else. -/
def Obligations.PeriodIsNeverRead : Prop :=
  ∀ (i : Instr) (s t : State) (p : Period), exec i s = .next t →
    ∃ q, exec i { s with period := p } = .next { t with period := q } ∧ (q = p ∨ q = t.period)

/-- 70_reset_and_hazards.md R251: how many events, and how many of them line drives, each request that raises no fault
appends. -/
def Obligations.EventCounts : Prop :=
  ∀ (i : Instr) (s t : State), exec i s = .next t → t.fault = none →
    ∃ es, t.trace = s.trace ++ es ∧
      (lineCount es, es.length) =
        match i with
        | .init => (3, 4)
        | .writeFrame _ => (0, 0)
        | .enable => (0, 1)
        | .disable => (0, 1)
        | .setPeriod _ => (0, 1)
        | .latch _ => (1, 1)
        | .shift _ => (24, 24)
        | .command _ _ => (50, 50)
        | .tick => if s.mode = .enabled then (194, if s.row = 7 then 195 else 194) else (0, 0)
end

