-- ==== Sys2Proof/Laws/Decode.lean ====
section
/-! SUPPORT. The decoder and the encoder as arithmetic on the word's number: fields, must-be-zero bits, the operation a
code names. -/

namespace Sys2Proof

/-! ### Fields as numbers -/

theorem opcField_toNat (w : Word) : (opcField w).toNat = w.toNat % 256 := by
  simp [opcField, BitVec.extractLsb'_toNat]

theorem f1Field_toNat (w : Word) : (f1Field w).toNat = w.toNat / 256 % 256 := by
  simp [f1Field, BitVec.extractLsb'_toNat, Nat.shiftRight_eq_div_pow]

theorem f2Field_toNat (w : Word) : (f2Field w).toNat = w.toNat / 65536 % 256 := by
  simp [f2Field, BitVec.extractLsb'_toNat, Nat.shiftRight_eq_div_pow]

theorem dividerField_toNat (w : Word) : (dividerField w).toNat = w.toNat / 256 := by
  have := w.isLt
  simp [dividerField, BitVec.extractLsb'_toNat, Nat.shiftRight_eq_div_pow]
  omega

theorem levelField_eq (w : Word) : levelField w = decide (w.toNat / 256 % 2 = 1) := by
  rw [levelField, BitVec.getLsbD, Nat.testBit_eq_decide_div_mod_eq]

/-! ### Codes -/

/-- A code names an operation, or is reserved (30_encoding.md R73, R76). -/
theorem opcodeOf_cases (b : Byte) :
    (opcodeOf b = none ∧ (b.toNat = 0 ∨ (9 ≤ b.toNat ∧ b.toNat ≤ 15) ∨ 17 ≤ b.toNat)) ∨
      ∃ o, opcodeOf b = some o ∧ b = o.number := by
  revert b; decide

@[simp] theorem opcodeOf_number (o : Opcode) : opcodeOf o.number = some o := by cases o <;> rfl

theorem number_inj (o o' : Opcode) (h : o.number = o'.number) : o = o' := by
  have := congrArg opcodeOf h
  rwa [opcodeOf_number, opcodeOf_number, Option.some.injEq] at this

theorem number_not_reserved (o : Opcode) :
    ¬ (o.number.toNat = 0 ∨ (9 ≤ o.number.toNat ∧ o.number.toNat ≤ 15) ∨ 17 ≤ o.number.toNat) := by
  cases o <;> decide

/-! ### Must-be-zero bits -/

/-- The bits from `n` up are zero exactly when the number is below `2^n`. -/
theorem and_allOnes_shiftLeft_eq_zero (w : Word) (n : Nat) :
    w &&& (BitVec.allOnes 32 <<< n) = 0 ↔ w.toNat / 2 ^ n = 0 := by
  constructor
  · intro h
    apply Nat.eq_of_testBit_eq
    intro i
    rw [Nat.testBit_div_two_pow, Nat.zero_testBit]
    by_cases hi : i + n < 32
    · have := congrArg (fun v => BitVec.getLsbD v (i + n)) h
      rw [BitVec.getLsbD_and, BitVec.getLsbD_shiftLeft, Nat.add_sub_cancel, BitVec.getLsbD_allOnes] at this
      rw [← BitVec.getLsbD]
      simpa [hi, show i < 32 by omega] using this
    · exact Nat.testBit_lt_two_pow (lt_of_lt_of_le w.isLt (Nat.pow_le_pow_right (by omega) (by omega)))
  · intro h
    apply BitVec.eq_of_getLsbD_eq
    intro i hi
    by_cases h' : n ≤ i
    · have : (w.toNat / 2 ^ n).testBit (i - n) = false := by rw [h]; simp
      rw [Nat.testBit_div_two_pow, show i - n + n = i by omega] at this
      simp [BitVec.getLsbD, this]
    · simp [BitVec.getLsbD_and, BitVec.getLsbD_shiftLeft, show i < n by omega]

/-- The lowest must-be-zero bit of an operation: 32 where there is none (30_encoding.md R73). -/
def Opcode.operandEnd : Opcode → Nat
  | .init => 8
  | .writeFrame => 8
  | .enable => 8
  | .disable => 8
  | .setPeriod => 32
  | .latch => 9
  | .shift => 16
  | .command => 24
  | .tick => 8

theorem mustBeZero_iff (o : Opcode) (w : Word) : w &&& o.mustBeZero = 0 ↔ w.toNat / 2 ^ o.operandEnd = 0 := by
  rw [← and_allOnes_shiftLeft_eq_zero]
  cases o <;> rfl

/-- What the checks on a word answer, as numbers (60_exceptions.md R206). -/
theorem checkWord_spec (p : Port) (w : Word) :
    (checkWord p w = .error .reservedOpcode ∧
      (w.toNat % 256 = 0 ∨ (9 ≤ w.toNat % 256 ∧ w.toNat % 256 ≤ 15) ∨ 17 ≤ w.toNat % 256)) ∨
    ∃ o : Opcode, w.toNat % 256 = o.number.toNat ∧
      checkWord p w =
        if o.port ≠ p then .error .wrongPort
        else if w.toNat / 2 ^ o.operandEnd ≠ 0 then .error .nonzeroMbz
        else .ok o := by
  rcases opcodeOf_cases (opcField w) with ⟨h, hr⟩ | ⟨o, h, hb⟩
  · rw [opcField_toNat] at hr
    exact .inl ⟨by rw [checkWord, h], hr⟩
  · exact .inr ⟨o, by rw [← opcField_toNat, hb], by simp only [checkWord, h, ne_eq, mustBeZero_iff]⟩

/-- What a port accepts. -/
theorem decodePort_ok (p : Port) (w : Word) (payload : List Byte) (i : Instr) (h : decodePort p w payload = .ok i) :
    ∃ o : Opcode, w.toNat % 256 = o.number.toNat ∧ o.port = p ∧ w.toNat / 2 ^ o.operandEnd = 0 ∧
      i = withOperands o w payload := by
  rw [decodePort] at h
  rcases checkWord_spec p w with ⟨h', _⟩ | ⟨o, ho, h'⟩
  · rw [h'] at h; cases h
  · rw [h'] at h
    refine ⟨o, ho, ?_⟩
    by_cases hp : o.port = p <;> by_cases hm : w.toNat / 2 ^ o.operandEnd = 0 <;> simp [hp, hm] at h
    exact ⟨hp, hm, h.symm⟩

/-! ### The encoder as numbers -/

theorem toNat_append_eq {m n : Nat} (a : BitVec m) (b : BitVec n) : (a ++ b).toNat = a.toNat * 2 ^ n + b.toNat := by
  rw [BitVec.toNat_append, ← Nat.shiftLeft_add_eq_or_of_lt b.isLt, Nat.shiftLeft_eq]

theorem encodeWord_setPeriod (d : Period) : (encodeWord (.setPeriod d)).toNat = d.toNat * 256 + 5 :=
  toNat_append_eq d 0x05#8

theorem encodeWord_latch (l : Level) : (encodeWord (.latch l)).toNat = l.toNat * 256 + 6 := by
  cases l <;> rfl

theorem encodeWord_shift (b : Byte) : (encodeWord (.shift b)).toNat = b.toNat * 256 + 7 := by
  show (0x0000#16 ++ b ++ 0x07#8).toNat = _
  rw [toNat_append_eq, toNat_append_eq]
  simp

theorem encodeWord_command (c d : Byte) :
    (encodeWord (.command c d)).toNat = d.toNat * 65536 + c.toNat * 256 + 8 := by
  show (0x00#8 ++ d ++ c ++ 0x08#8).toNat = _
  rw [toNat_append_eq, toNat_append_eq, toNat_append_eq]
  simp only [BitVec.toNat_ofNat]
  omega

/-- The code and the must-be-zero bits of a request's word. -/
theorem encodeWord_code (i : Instr) :
    (encodeWord i).toNat % 256 = i.opcode.number.toNat ∧ (encodeWord i).toNat / 2 ^ i.opcode.operandEnd = 0 := by
  cases i with
  | setPeriod d =>
    have := d.isLt
    rw [encodeWord_setPeriod]
    exact ⟨show _ % 256 = 5 by omega, show _ / 2 ^ 32 = 0 by omega⟩
  | latch l => cases l <;> decide
  | shift b =>
    have := b.isLt
    rw [encodeWord_shift]
    exact ⟨show _ % 256 = 7 by omega, show _ / 2 ^ 16 = 0 by omega⟩
  | command c d =>
    have := c.isLt
    have := d.isLt
    rw [encodeWord_command]
    exact ⟨show _ % 256 = 8 by omega, show _ / 2 ^ 24 = 0 by omega⟩
  | writeFrame p => exact ⟨show 2 % 256 = 2 by decide, show 2 / 2 ^ 8 = 0 by decide⟩
  | _ => decide

end Sys2Proof
end

