-- ==== Sys2Proof/Laws/State.lean ====
section
/-! SUPPORT. One lemma per field per update of the state, so that no proof unfolds a record update. -/

namespace Sys2Proof.Machine

variable (s : State)

/-! ### setMode -/

@[simp] theorem State.setMode_mode (m : Mode) : (s.setMode m).mode = m := rfl
@[simp] theorem State.setMode_row (m : Mode) : (s.setMode m).row = s.row := rfl
@[simp] theorem State.setMode_fc (m : Mode) : (s.setMode m).fc = s.fc := rfl
@[simp] theorem State.setMode_period (m : Mode) : (s.setMode m).period = s.period := rfl
@[simp] theorem State.setMode_dat (m : Mode) : (s.setMode m).dat = s.dat := rfl
@[simp] theorem State.setMode_clk (m : Mode) : (s.setMode m).clk = s.clk := rfl
@[simp] theorem State.setMode_lat (m : Mode) : (s.setMode m).lat = s.lat := rfl
@[simp] theorem State.setMode_fault (m : Mode) : (s.setMode m).fault = s.fault := rfl
@[simp] theorem State.setMode_refused (m : Mode) : (s.setMode m).refused = s.refused := rfl
@[simp] theorem State.setMode_fb (m : Mode) : (s.setMode m).fb = s.fb := rfl
@[simp] theorem State.setMode_acc (m : Mode) : (s.setMode m).acc = s.acc := rfl
@[simp] theorem State.setMode_copy (m : Mode) : (s.setMode m).copy = s.copy := rfl
@[simp] theorem State.setMode_trace (m : Mode) : (s.setMode m).trace = s.trace := rfl
@[simp] theorem State.setMode_turns (m : Mode) : (s.setMode m).turns = s.turns := rfl
@[simp] theorem State.setMode_draws (m : Mode) : (s.setMode m).draws = s.draws := rfl

/-! ### setRow -/

@[simp] theorem State.setRow_mode (r : RowIx) : (s.setRow r).mode = s.mode := rfl
@[simp] theorem State.setRow_row (r : RowIx) : (s.setRow r).row = r := rfl
@[simp] theorem State.setRow_fc (r : RowIx) : (s.setRow r).fc = s.fc := rfl
@[simp] theorem State.setRow_period (r : RowIx) : (s.setRow r).period = s.period := rfl
@[simp] theorem State.setRow_dat (r : RowIx) : (s.setRow r).dat = s.dat := rfl
@[simp] theorem State.setRow_clk (r : RowIx) : (s.setRow r).clk = s.clk := rfl
@[simp] theorem State.setRow_lat (r : RowIx) : (s.setRow r).lat = s.lat := rfl
@[simp] theorem State.setRow_fault (r : RowIx) : (s.setRow r).fault = s.fault := rfl
@[simp] theorem State.setRow_refused (r : RowIx) : (s.setRow r).refused = s.refused := rfl
@[simp] theorem State.setRow_fb (r : RowIx) : (s.setRow r).fb = s.fb := rfl
@[simp] theorem State.setRow_acc (r : RowIx) : (s.setRow r).acc = s.acc := rfl
@[simp] theorem State.setRow_copy (r : RowIx) : (s.setRow r).copy = s.copy := rfl
@[simp] theorem State.setRow_trace (r : RowIx) : (s.setRow r).trace = s.trace := rfl
@[simp] theorem State.setRow_turns (r : RowIx) : (s.setRow r).turns = s.turns := rfl
@[simp] theorem State.setRow_draws (r : RowIx) : (s.setRow r).draws = s.draws := rfl

/-! ### setFc -/

@[simp] theorem State.setFc_mode (n : FrameNumber) : (s.setFc n).mode = s.mode := rfl
@[simp] theorem State.setFc_row (n : FrameNumber) : (s.setFc n).row = s.row := rfl
@[simp] theorem State.setFc_fc (n : FrameNumber) : (s.setFc n).fc = n := rfl
@[simp] theorem State.setFc_period (n : FrameNumber) : (s.setFc n).period = s.period := rfl
@[simp] theorem State.setFc_dat (n : FrameNumber) : (s.setFc n).dat = s.dat := rfl
@[simp] theorem State.setFc_clk (n : FrameNumber) : (s.setFc n).clk = s.clk := rfl
@[simp] theorem State.setFc_lat (n : FrameNumber) : (s.setFc n).lat = s.lat := rfl
@[simp] theorem State.setFc_fault (n : FrameNumber) : (s.setFc n).fault = s.fault := rfl
@[simp] theorem State.setFc_refused (n : FrameNumber) : (s.setFc n).refused = s.refused := rfl
@[simp] theorem State.setFc_fb (n : FrameNumber) : (s.setFc n).fb = s.fb := rfl
@[simp] theorem State.setFc_acc (n : FrameNumber) : (s.setFc n).acc = s.acc := rfl
@[simp] theorem State.setFc_copy (n : FrameNumber) : (s.setFc n).copy = s.copy := rfl
@[simp] theorem State.setFc_trace (n : FrameNumber) : (s.setFc n).trace = s.trace := rfl
@[simp] theorem State.setFc_turns (n : FrameNumber) : (s.setFc n).turns = s.turns := rfl
@[simp] theorem State.setFc_draws (n : FrameNumber) : (s.setFc n).draws = s.draws := rfl

/-! ### setPeriod -/

@[simp] theorem State.setPeriod_mode (p : Period) : (s.setPeriod p).mode = s.mode := rfl
@[simp] theorem State.setPeriod_row (p : Period) : (s.setPeriod p).row = s.row := rfl
@[simp] theorem State.setPeriod_fc (p : Period) : (s.setPeriod p).fc = s.fc := rfl
@[simp] theorem State.setPeriod_period (p : Period) : (s.setPeriod p).period = p := rfl
@[simp] theorem State.setPeriod_dat (p : Period) : (s.setPeriod p).dat = s.dat := rfl
@[simp] theorem State.setPeriod_clk (p : Period) : (s.setPeriod p).clk = s.clk := rfl
@[simp] theorem State.setPeriod_lat (p : Period) : (s.setPeriod p).lat = s.lat := rfl
@[simp] theorem State.setPeriod_fault (p : Period) : (s.setPeriod p).fault = s.fault := rfl
@[simp] theorem State.setPeriod_refused (p : Period) : (s.setPeriod p).refused = s.refused := rfl
@[simp] theorem State.setPeriod_fb (p : Period) : (s.setPeriod p).fb = s.fb := rfl
@[simp] theorem State.setPeriod_acc (p : Period) : (s.setPeriod p).acc = s.acc := rfl
@[simp] theorem State.setPeriod_copy (p : Period) : (s.setPeriod p).copy = s.copy := rfl
@[simp] theorem State.setPeriod_trace (p : Period) : (s.setPeriod p).trace = s.trace := rfl
@[simp] theorem State.setPeriod_turns (p : Period) : (s.setPeriod p).turns = s.turns := rfl
@[simp] theorem State.setPeriod_draws (p : Period) : (s.setPeriod p).draws = s.draws := rfl

/-! ### setFault -/

@[simp] theorem State.setFault_mode (f : FaultMark) : (s.setFault f).mode = s.mode := rfl
@[simp] theorem State.setFault_row (f : FaultMark) : (s.setFault f).row = s.row := rfl
@[simp] theorem State.setFault_fc (f : FaultMark) : (s.setFault f).fc = s.fc := rfl
@[simp] theorem State.setFault_period (f : FaultMark) : (s.setFault f).period = s.period := rfl
@[simp] theorem State.setFault_dat (f : FaultMark) : (s.setFault f).dat = s.dat := rfl
@[simp] theorem State.setFault_clk (f : FaultMark) : (s.setFault f).clk = s.clk := rfl
@[simp] theorem State.setFault_lat (f : FaultMark) : (s.setFault f).lat = s.lat := rfl
@[simp] theorem State.setFault_fault (f : FaultMark) : (s.setFault f).fault = some f := rfl
@[simp] theorem State.setFault_refused (f : FaultMark) : (s.setFault f).refused = s.refused := rfl
@[simp] theorem State.setFault_fb (f : FaultMark) : (s.setFault f).fb = s.fb := rfl
@[simp] theorem State.setFault_acc (f : FaultMark) : (s.setFault f).acc = s.acc := rfl
@[simp] theorem State.setFault_copy (f : FaultMark) : (s.setFault f).copy = s.copy := rfl
@[simp] theorem State.setFault_trace (f : FaultMark) : (s.setFault f).trace = s.trace := rfl
@[simp] theorem State.setFault_turns (f : FaultMark) : (s.setFault f).turns = s.turns := rfl
@[simp] theorem State.setFault_draws (f : FaultMark) : (s.setFault f).draws = s.draws := rfl

/-! ### setRefused -/

@[simp] theorem State.setRefused_mode (r : RefusalMark) : (s.setRefused r).mode = s.mode := rfl
@[simp] theorem State.setRefused_row (r : RefusalMark) : (s.setRefused r).row = s.row := rfl
@[simp] theorem State.setRefused_fc (r : RefusalMark) : (s.setRefused r).fc = s.fc := rfl
@[simp] theorem State.setRefused_period (r : RefusalMark) : (s.setRefused r).period = s.period := rfl
@[simp] theorem State.setRefused_dat (r : RefusalMark) : (s.setRefused r).dat = s.dat := rfl
@[simp] theorem State.setRefused_clk (r : RefusalMark) : (s.setRefused r).clk = s.clk := rfl
@[simp] theorem State.setRefused_lat (r : RefusalMark) : (s.setRefused r).lat = s.lat := rfl
@[simp] theorem State.setRefused_fault (r : RefusalMark) : (s.setRefused r).fault = s.fault := rfl
@[simp] theorem State.setRefused_refused (r : RefusalMark) : (s.setRefused r).refused = some r := rfl
@[simp] theorem State.setRefused_fb (r : RefusalMark) : (s.setRefused r).fb = s.fb := rfl
@[simp] theorem State.setRefused_acc (r : RefusalMark) : (s.setRefused r).acc = s.acc := rfl
@[simp] theorem State.setRefused_copy (r : RefusalMark) : (s.setRefused r).copy = s.copy := rfl
@[simp] theorem State.setRefused_trace (r : RefusalMark) : (s.setRefused r).trace = s.trace := rfl
@[simp] theorem State.setRefused_turns (r : RefusalMark) : (s.setRefused r).turns = s.turns := rfl
@[simp] theorem State.setRefused_draws (r : RefusalMark) : (s.setRefused r).draws = s.draws := rfl

/-! ### writeFb -/

@[simp] theorem State.writeFb_mode (i : Index) (v : Byte) : (s.writeFb i v).mode = s.mode := rfl
@[simp] theorem State.writeFb_row (i : Index) (v : Byte) : (s.writeFb i v).row = s.row := rfl
@[simp] theorem State.writeFb_fc (i : Index) (v : Byte) : (s.writeFb i v).fc = s.fc := rfl
@[simp] theorem State.writeFb_period (i : Index) (v : Byte) : (s.writeFb i v).period = s.period := rfl
@[simp] theorem State.writeFb_dat (i : Index) (v : Byte) : (s.writeFb i v).dat = s.dat := rfl
@[simp] theorem State.writeFb_clk (i : Index) (v : Byte) : (s.writeFb i v).clk = s.clk := rfl
@[simp] theorem State.writeFb_lat (i : Index) (v : Byte) : (s.writeFb i v).lat = s.lat := rfl
@[simp] theorem State.writeFb_fault (i : Index) (v : Byte) : (s.writeFb i v).fault = s.fault := rfl
@[simp] theorem State.writeFb_refused (i : Index) (v : Byte) : (s.writeFb i v).refused = s.refused := rfl
@[simp] theorem State.writeFb_fb (i : Index) (v : Byte) : (s.writeFb i v).fb = s.fb.write i v := rfl
@[simp] theorem State.writeFb_acc (i : Index) (v : Byte) : (s.writeFb i v).acc = s.acc := rfl
@[simp] theorem State.writeFb_copy (i : Index) (v : Byte) : (s.writeFb i v).copy = s.copy := rfl
@[simp] theorem State.writeFb_trace (i : Index) (v : Byte) : (s.writeFb i v).trace = s.trace := rfl
@[simp] theorem State.writeFb_turns (i : Index) (v : Byte) : (s.writeFb i v).turns = s.turns := rfl
@[simp] theorem State.writeFb_draws (i : Index) (v : Byte) : (s.writeFb i v).draws = s.draws := rfl

/-! ### writeAcc -/

@[simp] theorem State.writeAcc_mode (i : Index) (v : Byte) : (s.writeAcc i v).mode = s.mode := rfl
@[simp] theorem State.writeAcc_row (i : Index) (v : Byte) : (s.writeAcc i v).row = s.row := rfl
@[simp] theorem State.writeAcc_fc (i : Index) (v : Byte) : (s.writeAcc i v).fc = s.fc := rfl
@[simp] theorem State.writeAcc_period (i : Index) (v : Byte) : (s.writeAcc i v).period = s.period := rfl
@[simp] theorem State.writeAcc_dat (i : Index) (v : Byte) : (s.writeAcc i v).dat = s.dat := rfl
@[simp] theorem State.writeAcc_clk (i : Index) (v : Byte) : (s.writeAcc i v).clk = s.clk := rfl
@[simp] theorem State.writeAcc_lat (i : Index) (v : Byte) : (s.writeAcc i v).lat = s.lat := rfl
@[simp] theorem State.writeAcc_fault (i : Index) (v : Byte) : (s.writeAcc i v).fault = s.fault := rfl
@[simp] theorem State.writeAcc_refused (i : Index) (v : Byte) : (s.writeAcc i v).refused = s.refused := rfl
@[simp] theorem State.writeAcc_fb (i : Index) (v : Byte) : (s.writeAcc i v).fb = s.fb := rfl
@[simp] theorem State.writeAcc_acc (i : Index) (v : Byte) : (s.writeAcc i v).acc = s.acc.write i v := rfl
@[simp] theorem State.writeAcc_copy (i : Index) (v : Byte) : (s.writeAcc i v).copy = s.copy := rfl
@[simp] theorem State.writeAcc_trace (i : Index) (v : Byte) : (s.writeAcc i v).trace = s.trace := rfl
@[simp] theorem State.writeAcc_turns (i : Index) (v : Byte) : (s.writeAcc i v).turns = s.turns := rfl
@[simp] theorem State.writeAcc_draws (i : Index) (v : Byte) : (s.writeAcc i v).draws = s.draws := rfl

/-! ### fillFb -/

@[simp] theorem State.fillFb_mode (v : Index → Byte) : (s.fillFb v).mode = s.mode := rfl
@[simp] theorem State.fillFb_row (v : Index → Byte) : (s.fillFb v).row = s.row := rfl
@[simp] theorem State.fillFb_fc (v : Index → Byte) : (s.fillFb v).fc = s.fc := rfl
@[simp] theorem State.fillFb_period (v : Index → Byte) : (s.fillFb v).period = s.period := rfl
@[simp] theorem State.fillFb_dat (v : Index → Byte) : (s.fillFb v).dat = s.dat := rfl
@[simp] theorem State.fillFb_clk (v : Index → Byte) : (s.fillFb v).clk = s.clk := rfl
@[simp] theorem State.fillFb_lat (v : Index → Byte) : (s.fillFb v).lat = s.lat := rfl
@[simp] theorem State.fillFb_fault (v : Index → Byte) : (s.fillFb v).fault = s.fault := rfl
@[simp] theorem State.fillFb_refused (v : Index → Byte) : (s.fillFb v).refused = s.refused := rfl
@[simp] theorem State.fillFb_fb (v : Index → Byte) : (s.fillFb v).fb = s.fb.fill v := rfl
@[simp] theorem State.fillFb_acc (v : Index → Byte) : (s.fillFb v).acc = s.acc := rfl
@[simp] theorem State.fillFb_copy (v : Index → Byte) : (s.fillFb v).copy = s.copy := rfl
@[simp] theorem State.fillFb_trace (v : Index → Byte) : (s.fillFb v).trace = s.trace := rfl
@[simp] theorem State.fillFb_turns (v : Index → Byte) : (s.fillFb v).turns = s.turns := rfl
@[simp] theorem State.fillFb_draws (v : Index → Byte) : (s.fillFb v).draws = s.draws := rfl

/-! ### fillAcc -/

@[simp] theorem State.fillAcc_mode (v : Index → Byte) : (s.fillAcc v).mode = s.mode := rfl
@[simp] theorem State.fillAcc_row (v : Index → Byte) : (s.fillAcc v).row = s.row := rfl
@[simp] theorem State.fillAcc_fc (v : Index → Byte) : (s.fillAcc v).fc = s.fc := rfl
@[simp] theorem State.fillAcc_period (v : Index → Byte) : (s.fillAcc v).period = s.period := rfl
@[simp] theorem State.fillAcc_dat (v : Index → Byte) : (s.fillAcc v).dat = s.dat := rfl
@[simp] theorem State.fillAcc_clk (v : Index → Byte) : (s.fillAcc v).clk = s.clk := rfl
@[simp] theorem State.fillAcc_lat (v : Index → Byte) : (s.fillAcc v).lat = s.lat := rfl
@[simp] theorem State.fillAcc_fault (v : Index → Byte) : (s.fillAcc v).fault = s.fault := rfl
@[simp] theorem State.fillAcc_refused (v : Index → Byte) : (s.fillAcc v).refused = s.refused := rfl
@[simp] theorem State.fillAcc_fb (v : Index → Byte) : (s.fillAcc v).fb = s.fb := rfl
@[simp] theorem State.fillAcc_acc (v : Index → Byte) : (s.fillAcc v).acc = s.acc.fill v := rfl
@[simp] theorem State.fillAcc_copy (v : Index → Byte) : (s.fillAcc v).copy = s.copy := rfl
@[simp] theorem State.fillAcc_trace (v : Index → Byte) : (s.fillAcc v).trace = s.trace := rfl
@[simp] theorem State.fillAcc_turns (v : Index → Byte) : (s.fillAcc v).turns = s.turns := rfl
@[simp] theorem State.fillAcc_draws (v : Index → Byte) : (s.fillAcc v).draws = s.draws := rfl

/-! ### setCopy -/

@[simp] theorem State.setCopy_mode (c : Option Copy) : (s.setCopy c).mode = s.mode := rfl
@[simp] theorem State.setCopy_row (c : Option Copy) : (s.setCopy c).row = s.row := rfl
@[simp] theorem State.setCopy_fc (c : Option Copy) : (s.setCopy c).fc = s.fc := rfl
@[simp] theorem State.setCopy_period (c : Option Copy) : (s.setCopy c).period = s.period := rfl
@[simp] theorem State.setCopy_dat (c : Option Copy) : (s.setCopy c).dat = s.dat := rfl
@[simp] theorem State.setCopy_clk (c : Option Copy) : (s.setCopy c).clk = s.clk := rfl
@[simp] theorem State.setCopy_lat (c : Option Copy) : (s.setCopy c).lat = s.lat := rfl
@[simp] theorem State.setCopy_fault (c : Option Copy) : (s.setCopy c).fault = s.fault := rfl
@[simp] theorem State.setCopy_refused (c : Option Copy) : (s.setCopy c).refused = s.refused := rfl
@[simp] theorem State.setCopy_fb (c : Option Copy) : (s.setCopy c).fb = s.fb := rfl
@[simp] theorem State.setCopy_acc (c : Option Copy) : (s.setCopy c).acc = s.acc := rfl
@[simp] theorem State.setCopy_copy (c : Option Copy) : (s.setCopy c).copy = c := rfl
@[simp] theorem State.setCopy_trace (c : Option Copy) : (s.setCopy c).trace = s.trace := rfl
@[simp] theorem State.setCopy_turns (c : Option Copy) : (s.setCopy c).turns = s.turns := rfl
@[simp] theorem State.setCopy_draws (c : Option Copy) : (s.setCopy c).draws = s.draws := rfl

/-! ### setTurns -/

@[simp] theorem State.setTurns_mode (t : List Turn) : (s.setTurns t).mode = s.mode := rfl
@[simp] theorem State.setTurns_row (t : List Turn) : (s.setTurns t).row = s.row := rfl
@[simp] theorem State.setTurns_fc (t : List Turn) : (s.setTurns t).fc = s.fc := rfl
@[simp] theorem State.setTurns_period (t : List Turn) : (s.setTurns t).period = s.period := rfl
@[simp] theorem State.setTurns_dat (t : List Turn) : (s.setTurns t).dat = s.dat := rfl
@[simp] theorem State.setTurns_clk (t : List Turn) : (s.setTurns t).clk = s.clk := rfl
@[simp] theorem State.setTurns_lat (t : List Turn) : (s.setTurns t).lat = s.lat := rfl
@[simp] theorem State.setTurns_fault (t : List Turn) : (s.setTurns t).fault = s.fault := rfl
@[simp] theorem State.setTurns_refused (t : List Turn) : (s.setTurns t).refused = s.refused := rfl
@[simp] theorem State.setTurns_fb (t : List Turn) : (s.setTurns t).fb = s.fb := rfl
@[simp] theorem State.setTurns_acc (t : List Turn) : (s.setTurns t).acc = s.acc := rfl
@[simp] theorem State.setTurns_copy (t : List Turn) : (s.setTurns t).copy = s.copy := rfl
@[simp] theorem State.setTurns_trace (t : List Turn) : (s.setTurns t).trace = s.trace := rfl
@[simp] theorem State.setTurns_turns (t : List Turn) : (s.setTurns t).turns = t := rfl
@[simp] theorem State.setTurns_draws (t : List Turn) : (s.setTurns t).draws = s.draws := rfl

/-! ### countDraw -/

@[simp] theorem State.countDraw_mode : (s.countDraw).mode = s.mode := rfl
@[simp] theorem State.countDraw_row : (s.countDraw).row = s.row := rfl
@[simp] theorem State.countDraw_fc : (s.countDraw).fc = s.fc := rfl
@[simp] theorem State.countDraw_period : (s.countDraw).period = s.period := rfl
@[simp] theorem State.countDraw_dat : (s.countDraw).dat = s.dat := rfl
@[simp] theorem State.countDraw_clk : (s.countDraw).clk = s.clk := rfl
@[simp] theorem State.countDraw_lat : (s.countDraw).lat = s.lat := rfl
@[simp] theorem State.countDraw_fault : (s.countDraw).fault = s.fault := rfl
@[simp] theorem State.countDraw_refused : (s.countDraw).refused = s.refused := rfl
@[simp] theorem State.countDraw_fb : (s.countDraw).fb = s.fb := rfl
@[simp] theorem State.countDraw_acc : (s.countDraw).acc = s.acc := rfl
@[simp] theorem State.countDraw_copy : (s.countDraw).copy = s.copy := rfl
@[simp] theorem State.countDraw_trace : (s.countDraw).trace = s.trace := rfl
@[simp] theorem State.countDraw_turns : (s.countDraw).turns = s.turns := rfl
@[simp] theorem State.countDraw_draws : (s.countDraw).draws = s.draws + 1 := rfl

/-! ### emit -/

@[simp] theorem State.emit_mode (e : Event) : (s.emit e).mode = s.mode := rfl
@[simp] theorem State.emit_row (e : Event) : (s.emit e).row = s.row := rfl
@[simp] theorem State.emit_fc (e : Event) : (s.emit e).fc = s.fc := rfl
@[simp] theorem State.emit_period (e : Event) : (s.emit e).period = s.period := rfl
@[simp] theorem State.emit_dat (e : Event) : (s.emit e).dat = s.dat := rfl
@[simp] theorem State.emit_clk (e : Event) : (s.emit e).clk = s.clk := rfl
@[simp] theorem State.emit_lat (e : Event) : (s.emit e).lat = s.lat := rfl
@[simp] theorem State.emit_fault (e : Event) : (s.emit e).fault = s.fault := rfl
@[simp] theorem State.emit_refused (e : Event) : (s.emit e).refused = s.refused := rfl
@[simp] theorem State.emit_fb (e : Event) : (s.emit e).fb = s.fb := rfl
@[simp] theorem State.emit_acc (e : Event) : (s.emit e).acc = s.acc := rfl
@[simp] theorem State.emit_copy (e : Event) : (s.emit e).copy = s.copy := rfl
@[simp] theorem State.emit_trace (e : Event) : (s.emit e).trace = s.trace ++ [e] := rfl
@[simp] theorem State.emit_turns (e : Event) : (s.emit e).turns = s.turns := rfl
@[simp] theorem State.emit_draws (e : Event) : (s.emit e).draws = s.draws := rfl

/-! ### setLine -/

@[simp] theorem State.setLine_mode (l : Line) (v : Level) : (s.setLine l v).mode = s.mode := by cases l <;> rfl
@[simp] theorem State.setLine_row (l : Line) (v : Level) : (s.setLine l v).row = s.row := by cases l <;> rfl
@[simp] theorem State.setLine_fc (l : Line) (v : Level) : (s.setLine l v).fc = s.fc := by cases l <;> rfl
@[simp] theorem State.setLine_period (l : Line) (v : Level) : (s.setLine l v).period = s.period := by cases l <;> rfl
@[simp] theorem State.setLine_dat (l : Line) (v : Level) :
    (s.setLine l v).dat = if l = .dat then v else s.dat := by cases l <;> rfl
@[simp] theorem State.setLine_clk (l : Line) (v : Level) :
    (s.setLine l v).clk = if l = .clk then v else s.clk := by cases l <;> rfl
@[simp] theorem State.setLine_lat (l : Line) (v : Level) :
    (s.setLine l v).lat = if l = .lat then v else s.lat := by cases l <;> rfl
@[simp] theorem State.setLine_fault (l : Line) (v : Level) : (s.setLine l v).fault = s.fault := by cases l <;> rfl
@[simp] theorem State.setLine_refused (l : Line) (v : Level) : (s.setLine l v).refused = s.refused := by cases l <;> rfl
@[simp] theorem State.setLine_fb (l : Line) (v : Level) : (s.setLine l v).fb = s.fb := by cases l <;> rfl
@[simp] theorem State.setLine_acc (l : Line) (v : Level) : (s.setLine l v).acc = s.acc := by cases l <;> rfl
@[simp] theorem State.setLine_copy (l : Line) (v : Level) : (s.setLine l v).copy = s.copy := by cases l <;> rfl
@[simp] theorem State.setLine_trace (l : Line) (v : Level) : (s.setLine l v).trace = s.trace := by cases l <;> rfl
@[simp] theorem State.setLine_turns (l : Line) (v : Level) : (s.setLine l v).turns = s.turns := by cases l <;> rfl
@[simp] theorem State.setLine_draws (l : Line) (v : Level) : (s.setLine l v).draws = s.draws := by cases l <;> rfl

end Sys2Proof.Machine
end

