-- ==== Sys2Proof/Laws/Memory.lean ====
section
/-! SUPPORT. The laws of the pixel arrays: a read after a write, the canonical form kept, equal contents are equal
data. -/

namespace Sys2Proof.Machine

/-! ### Reading -/

theorem cellAt_insertCell_same (k : Nat) (v : Byte) (m : Memory) (h : ∀ c ∈ m, c.1 ≠ k) :
    cellAt (insertCell k v m) k = v := by
  induction m with
  | nil => simp [insertCell, cellAt]
  | cons c m ih =>
    obtain ⟨a, b⟩ := c
    have hne : a ≠ k := h (a, b) (by simp)
    have ih := ih fun c hc => h c (by simp [hc])
    by_cases hlt : k < a <;> simp [insertCell, cellAt, hlt, hne, ih]

theorem cellAt_insertCell_other (k j : Nat) (v : Byte) (m : Memory) (h : k ≠ j) :
    cellAt (insertCell k v m) j = cellAt m j := by
  induction m with
  | nil => simp [insertCell, cellAt, h]
  | cons c m ih =>
    obtain ⟨a, b⟩ := c
    by_cases hlt : k < a <;> simp [insertCell, cellAt, hlt, h, ih]

theorem cellAt_filter_other (k j : Nat) (m : Memory) (h : k ≠ j) :
    cellAt (m.filter fun c => c.1 != k) j = cellAt m j := by
  induction m with
  | nil => rfl
  | cons c m ih =>
    obtain ⟨a, b⟩ := c
    by_cases ha : a = k
    · have : a ≠ j := ha ▸ h
      simp [cellAt, ha, h, ih]
    · simp [cellAt, ha, ih]

theorem cellAt_unlisted (k : Nat) (m : Memory) (h : ∀ c ∈ m, c.1 ≠ k) : cellAt m k = unlisted := by
  induction m with
  | nil => rfl
  | cons c m ih =>
    obtain ⟨a, b⟩ := c
    have hne : a ≠ k := h (a, b) (by simp)
    simpa [cellAt, hne] using ih fun c hc => h c (by simp [hc])

theorem not_mem_filter (k : Nat) (m : Memory) : ∀ c ∈ m.filter (fun c => c.1 != k), c.1 ≠ k := by
  intro c hc
  simpa using (List.mem_filter.1 hc).2

/-- A read after a write to the same index gives the value written. -/
@[simp] theorem Memory.read_write_same (m : Memory) (i : Index) (v : Byte) : (m.write i v).read i = v := by
  unfold Memory.write Memory.read
  by_cases hv : v = unlisted
  · simpa [hv] using cellAt_unlisted _ _ (not_mem_filter i.toNat m)
  · simpa [hv] using cellAt_insertCell_same _ v _ (not_mem_filter i.toNat m)

/-- A write leaves every other index alone. -/
theorem Memory.read_write_other (m : Memory) (i j : Index) (v : Byte) (h : i ≠ j) :
    (m.write i v).read j = m.read j := by
  have hn : i.toNat ≠ j.toNat := fun e => h (BitVec.eq_of_toNat_eq e)
  unfold Memory.write Memory.read
  by_cases hv : v = unlisted
  · simp [hv, cellAt_filter_other _ _ _ hn]
  · simp [hv, cellAt_insertCell_other _ _ _ _ hn, cellAt_filter_other _ _ _ hn]

/-- What a read after a write gives. -/
theorem Memory.read_write (m : Memory) (i j : Index) (v : Byte) :
    (m.write i v).read j = if j = i then v else m.read j := by
  by_cases h : j = i
  · simp [h]
  · simp [h, Memory.read_write_other m i j v (Ne.symm h)]

theorem mem_allIndices (i : Index) : i ∈ allIndices := by
  simp only [allIndices, List.mem_map, List.mem_range]
  exact ⟨i.toNat, i.isLt, by simp⟩

theorem read_foldl_write (is : List Index) (m : Memory) (v : Index → Byte) (j : Index) :
    (is.foldl (fun m i => m.write i (v i)) m).read j = if j ∈ is then v j else m.read j := by
  induction is generalizing m with
  | nil => simp
  | cons i is ih =>
    rw [List.foldl_cons, ih, Memory.read_write]
    by_cases hj : j ∈ is <;> by_cases hi : j = i <;> simp [hj, hi]

/-- Filling gives every index its value. -/
@[simp] theorem Memory.read_fill (m : Memory) (v : Index → Byte) (j : Index) : (m.fill v).read j = v j := by
  unfold Memory.fill
  rw [read_foldl_write, if_pos (mem_allIndices j)]

/-! ### The canonical form -/

theorem insertCell_mem (k : Nat) (v : Byte) (m : Memory) (c : Host.Cell) :
    c ∈ insertCell k v m ↔ c = (k, v) ∨ c ∈ m := by
  induction m with
  | nil => simp [insertCell]
  | cons d m ih =>
    obtain ⟨a, b⟩ := d
    by_cases h : k < a
    · simp [insertCell, h]
    · simp [insertCell, h, ih, or_left_comm]

theorem insertCell_sorted (k : Nat) (v : Byte) (m : Memory) (hne : ∀ c ∈ m, c.1 ≠ k)
    (hs : m.Pairwise fun x y => x.1 < y.1) : (insertCell k v m).Pairwise fun x y => x.1 < y.1 := by
  induction m with
  | nil => simp [insertCell]
  | cons d m ih =>
    obtain ⟨a, b⟩ := d
    obtain ⟨hd, hm⟩ := List.pairwise_cons.1 hs
    by_cases h : k < a
    · rw [insertCell, if_pos h]
      refine List.pairwise_cons.2 ⟨fun c hc => ?_, hs⟩
      rcases List.mem_cons.1 hc with rfl | hc
      · exact h
      · exact h.trans (hd c hc)
    · have ha : a ≠ k := hne (a, b) (by simp)
      simp only [insertCell, h, if_false, List.pairwise_cons]
      refine ⟨fun c hc => ?_, ih (fun c hc => hne c (by simp [hc])) hm⟩
      rcases (insertCell_mem k v m c).1 hc with rfl | hc
      · show a < k
        omega
      · exact hd c hc

/-- Every write keeps the canonical form. -/
theorem Memory.wf_write (m : Memory) (i : Index) (v : Byte) (h : m.wf) : (m.write i v).wf := by
  obtain ⟨hs, hc⟩ := h
  have hfs : (m.filter fun c => c.1 != i.toNat).Pairwise fun x y => x.1 < y.1 := hs.filter _
  have hfc : ∀ c ∈ m.filter (fun c => c.1 != i.toNat), c.1 < Config.frameBytes ∧ c.2 ≠ unlisted :=
    fun c h => hc c (List.mem_filter.1 h).1
  unfold Memory.write
  by_cases hv : v = unlisted
  · simp only [hv, if_true]
    exact ⟨hfs, hfc⟩
  · simp only [hv, if_false]
    refine ⟨insertCell_sorted _ _ _ (not_mem_filter i.toNat m) hfs, fun c hcm => ?_⟩
    rcases (insertCell_mem _ _ _ c).1 hcm with rfl | hcm
    · exact ⟨i.isLt, hv⟩
    · exact hfc c hcm

/-- Filling keeps the canonical form. -/
theorem Memory.wf_fill (m : Memory) (v : Index → Byte) (h : m.wf) : (m.fill v).wf := by
  unfold Memory.fill
  generalize allIndices = is
  induction is generalizing m with
  | nil => exact h
  | cons i is ih => exact ih _ (Memory.wf_write m i _ h)

/-- The power-on arrays are in canonical form. -/
theorem Memory.wf_nil : Memory.wf [] := by decide

theorem cellAt_of_mem (m : Memory) (hs : m.Pairwise fun x y => x.1 < y.1) (c : Host.Cell) (h : c ∈ m) :
    cellAt m c.1 = c.2 := by
  induction m with
  | nil => simp at h
  | cons d m ih =>
    obtain ⟨a, b⟩ := d
    obtain ⟨hd, hm⟩ := List.pairwise_cons.1 hs
    rcases List.mem_cons.1 h with rfl | h
    · simp [cellAt]
    · have := hd c h
      simp [cellAt, Nat.ne_of_lt this, ih hm h]

theorem mem_of_cellAt (m : Memory) (k : Nat) (h : cellAt m k ≠ unlisted) : (k, cellAt m k) ∈ m := by
  induction m with
  | nil => simp [cellAt] at h
  | cons d m ih =>
    obtain ⟨a, b⟩ := d
    by_cases ha : a = k
    · simp [cellAt, ha]
    · simp only [cellAt, ha, if_false] at h ⊢
      exact List.mem_cons_of_mem _ (ih h)

/-- Two arrays in canonical form that read alike are equal data. -/
theorem Memory.eq_of_read_eq (m n : Memory) (hm : m.wf) (hn : n.wf) (h : ∀ i, m.read i = n.read i) : m = n := by
  have key : ∀ (m n : Memory), m.wf → n.wf → (∀ i, m.read i = n.read i) → ∀ c ∈ m, c ∈ n := by
    intro m n hm hn h c hc
    obtain ⟨hlt, hv⟩ := hm.2 c hc
    have hi : (BitVec.ofNat 8 c.1).toNat = c.1 := by simpa using Nat.mod_eq_of_lt hlt
    have e : cellAt n c.1 = c.2 := by
      have := h (BitVec.ofNat 8 c.1)
      rw [Memory.read, Memory.read, hi, cellAt_of_mem m hm.1 c hc] at this
      exact this.symm
    have := mem_of_cellAt n c.1 (by rw [e]; exact hv)
    rwa [e] at this
  have hp : m.Perm n := by
    rw [List.perm_ext_iff_of_nodup (hm.1.imp fun h e => by simp [e] at h) (hn.1.imp fun h e => by simp [e] at h)]
    exact fun c => ⟨key m n hm hn h c, key n m hn hm (fun i => (h i).symm) c⟩
  exact hp.eq_of_pairwise (fun a b _ _ hab hba => absurd hab (Nat.lt_asymm hba)) hm.1 hn.1

/-! ### Cells named by row and column -/

theorem cellIndex_toNat (r : RowIx) (c : ColIx) : (cellIndex r c).toNat = 32 * r.toNat + c.toNat := by
  revert r c; decide

theorem cellIndex_inj (r r' : RowIx) (c c' : ColIx) : cellIndex r c = cellIndex r' c' ↔ r = r' ∧ c = c' := by
  constructor
  · intro h
    have h' := congrArg BitVec.toNat h
    rw [cellIndex_toNat, cellIndex_toNat] at h'
    exact ⟨BitVec.eq_of_toNat_eq (by omega), BitVec.eq_of_toNat_eq (by omega)⟩
  · rintro ⟨rfl, rfl⟩; rfl

theorem cellIndex_row_col (i : Index) : cellIndex (indexRow i) (indexCol i) = i := by
  revert i; decide

end Sys2Proof.Machine
end

