-- ==== Sys2Proof/Laws/Ops.lean ====
section
/-! SUPPORT. For each shared operation, what it can do, said once: driving lines, the serial sub-sequences, the copy
order, the request prelude. -/

namespace Sys2Proof.Machine

/-! ### Reading the arrays of an updated state -/

@[simp] theorem readAcc_writeAcc (s : State) (i j : Index) (v : Byte) :
    (s.writeAcc i v).readAcc j = if j = i then v else s.readAcc j := by
  simp [State.readAcc, Memory.read_write]

@[simp] theorem readFb_writeFb (s : State) (i j : Index) (v : Byte) :
    (s.writeFb i v).readFb j = if j = i then v else s.readFb j := by
  simp [State.readFb, Memory.read_write]

/-! ### The pixel sum -/

theorem pixelSum_toNat (a f : Byte) : (pixelSum a f).toNat = a.toNat + f.toNat := by
  simp only [pixelSum, BitVec.toNat_add, BitVec.toNat_setWidth]
  omega

theorem pixelWrapped_eq_add (a f : Byte) : pixelWrapped a f = a + f := by
  apply BitVec.eq_of_toNat_eq
  simp [pixelWrapped, BitVec.extractLsb'_toNat, pixelSum_toNat]

theorem pixelCarry_eq_decide (a f : Byte) : pixelCarry a f = decide (255 < a.toNat + f.toNat) := by
  have ha := a.isLt
  have hf := f.isLt
  rw [pixelCarry, BitVec.getLsbD, pixelSum_toNat, Nat.testBit_eq_decide_div_mod_eq]
  congr 1
  simp only [eq_iff_iff]
  omega

/-! ### Driving lines -/

theorem drive_dat (v : Level) (s : State) :
    drive .dat v s = { s with dat := v, trace := s.trace ++ [.line .dat v] } := rfl

theorem drive_clk (v : Level) (s : State) :
    drive .clk v s = { s with clk := v, trace := s.trace ++ [.line .clk v] } := rfl

theorem drive_lat (v : Level) (s : State) :
    drive .lat v s = { s with lat := v, trace := s.trace ++ [.line .lat v] } := rfl

/-- `ShiftOut`: 24 events, and the lines left at the byte's low bit and a high clock. -/
theorem shiftOut_eq (b : Byte) (s : State) :
    shiftOut b s = { s with dat := b.getLsbD 0, clk := true, trace := s.trace ++ byteEvents b } := by
  simp [shiftOut, shiftBits, drive_dat, drive_clk, byteEvents, byteBits, ← BitVec.shiftLeft_add]

/-- `PixelOut`: 3 events, and the lines left at the bit and a high clock. -/
theorem pixelOut_eq (c : Level) (s : State) :
    pixelOut c s = { s with dat := c, clk := true, trace := s.trace ++ pixelEvents c } := by
  simp [pixelOut, drive_dat, drive_clk, pixelEvents]

/-! ### The copy order -/

theorem shuffle_perm (pick : Nat → Nat) (is : List Index) : (shuffle pick is).Perm is := by
  induction is with
  | nil => exact .nil
  | cons i is ih =>
    have h : pick is.length % (is.length + 1) ≤ (shuffle pick is).length := by
      rw [length_shuffle]; exact Nat.le_of_lt_succ (Nat.mod_lt _ (Nat.succ_pos _))
    exact (List.perm_insertIdx i _ h).trans (ih.cons i)

theorem allIndices_nodup : allIndices.Nodup := by
  refine List.Nodup.map_on (fun x hx y hy h => ?_) List.nodup_range
  have := congrArg BitVec.toNat h
  rw [List.mem_range] at hx hy
  simpa [Nat.mod_eq_of_lt hx, Nat.mod_eq_of_lt hy] using this

theorem copyOrder_perm (n : Nat) : (copyOrder n).toList.Perm allIndices := by
  unfold copyOrder; exact shuffle_perm _ _

theorem copyOrder_nodup (n : Nat) : (copyOrder n).toList.Nodup :=
  (copyOrder_perm n).nodup_iff.2 allIndices_nodup

/-! ### The prelude -/

theorem stopped_eq_none_iff (s : State) : stopped s = none ↔ Running s := by
  unfold stopped Running
  cases s.fault <;> cases s.refused <;> simp

/-- While the machine runs, the prelude lets the run through. -/
theorem unlessStopped_running (s : State) (run : Result) (h : Running s) : unlessStopped s run = run := by
  simp [unlessStopped, (stopped_eq_none_iff s).2 h]

/-- What the first check answers: the run, or a stop by name. -/
theorem unlessStopped_cases (s : State) (run : Result) :
    (Running s ∧ unlessStopped s run = run) ∨ (¬ Running s ∧ ∃ f, stopped s = some f ∧ unlessStopped s run = .fault f) := by
  rcases hs : stopped s with _ | f
  · exact .inl ⟨(stopped_eq_none_iff s).1 hs, by simp [unlessStopped, hs]⟩
  · refine .inr ⟨fun h => ?_, f, rfl, by simp [unlessStopped, hs]⟩
    simp [(stopped_eq_none_iff s).2 h] at hs

theorem unlessStopped_next (s t : State) (run : Result) (h : unlessStopped s run = .next t) :
    Running s ∧ run = .next t := by
  rcases unlessStopped_cases s run with ⟨hr, he⟩ | ⟨_, f, _, he⟩
  · exact ⟨hr, by rw [← he, h]⟩
  · rw [he] at h; cases h

theorem hostStep_ready (s : State) (run : Result) (h : HostReady s) : hostStep s run = run := by
  rw [hostStep, unlessStopped_running s _ h.1, h.2]; rfl

theorem hostStep_next (s t : State) (run : Result) (h : hostStep s run = .next t) : HostReady s ∧ run = .next t := by
  obtain ⟨hr, h⟩ := unlessStopped_next _ _ _ h
  rcases hc : s.copy with _ | c
  · rw [hc] at h; exact ⟨⟨hr, hc⟩, h⟩
  · rw [hc] at h; cases h

/-- When a host request answers a next state: either it was refused a start by NOT_INITIALIZED, or it ran. -/
theorem hostRequest_next (i : Instr) (s run t : State) (h : hostRequest i s run = .next t) :
    HostReady s ∧
      ((s.mode = .uninit ∧ t = raiseFault .notInitialized (encodeWord i) s) ∨ (s.mode ≠ .uninit ∧ t = run)) := by
  obtain ⟨hr, h⟩ := hostStep_next _ _ _ h
  refine ⟨hr, ?_⟩
  by_cases hm : s.mode = .uninit <;> simp only [hm, if_true, if_false] at h <;> cases h <;> simp [hm]

theorem hostRequest_ready (i : Instr) (s run : State) (h : HostReady s) (hm : s.mode ≠ .uninit) :
    hostRequest i s run = .next run := by
  rw [hostRequest, hostStep_ready s _ h, if_neg hm]

theorem busRequest_disabled (i : Instr) (s run : State) (h : HostReady s) (hm : s.mode = .disabled) :
    busRequest i s run = .next run := by
  rw [busRequest, hostRequest_ready i s _ h (by simp [hm]), if_neg (by simp [hm])]

/-- When a bus request answers a next state: NOT_INITIALIZED, BUS_BUSY, or it ran. -/
theorem busRequest_next (i : Instr) (s run t : State) (h : busRequest i s run = .next t) :
    HostReady s ∧
      ((s.mode = .uninit ∧ t = raiseFault .notInitialized (encodeWord i) s) ∨
        (s.mode = .enabled ∧ t = raiseFault .busBusy (encodeWord i) s) ∨ (s.mode = .disabled ∧ t = run)) := by
  obtain ⟨hr, h⟩ := hostRequest_next _ _ _ _ h
  refine ⟨hr, ?_⟩
  rcases hm : s.mode with _ | _ | _ <;> simp_all

end Sys2Proof.Machine
end

