-- ==== Sys2Proof/Laws/PerInstr.lean ====
section
/-! SUPPORT. What holds of every request as syntax, one lemma per constructor. -/

namespace Sys2Proof.Laws.TableRow

/-- The `mask` of a row of spec/opcode_table.json (30_encoding.md R73). -/
def rowMask : Opcode → Word
  | .init => 0xFFFFFFFF
  | .writeFrame => 0xFFFFFFFF
  | .enable => 0xFFFFFFFF
  | .disable => 0xFFFFFFFF
  | .setPeriod => 0x000000FF
  | .latch => 0xFFFFFEFF
  | .shift => 0xFFFF00FF
  | .command => 0xFF0000FF
  | .tick => 0xFFFFFFFF

/-- The `match` of a row of spec/opcode_table.json (30_encoding.md R73). -/
def rowMatch : Opcode → Word
  | .init => 0x00000001
  | .writeFrame => 0x00000002
  | .enable => 0x00000003
  | .disable => 0x00000004
  | .setPeriod => 0x00000005
  | .latch => 0x00000006
  | .shift => 0x00000007
  | .command => 0x00000008
  | .tick => 0x00000010

/-- The word of a request matches its row of the opcode table, and no other row (30_encoding.md R73). -/
def Statement (i : Instr) : Prop := ∀ o : Opcode, encodeWord i &&& rowMask o = rowMatch o ↔ o = i.opcode

/-- A row's mask takes the operation code in whole. -/
theorem opcField_of_match (w : Word) (o : Opcode) (h : w &&& rowMask o = rowMatch o) : opcField w = o.number := by
  have h' := congrArg opcField h
  have hm : opcField (w &&& rowMask o) = opcField w := by
    apply BitVec.eq_of_getLsbD_eq
    intro k hk
    have hf : (rowMask o).getLsbD k = true := by
      revert hk; revert k; cases o <;> decide
    simp [opcField, hk, hf]
  rw [← hm, h']
  cases o <;> rfl

/-- Two rows' masks cannot both match one word. -/
theorem statement_of_match (i : Instr) (h : encodeWord i &&& rowMask i.opcode = rowMatch i.opcode) : Statement i := by
  intro o
  constructor
  · intro ho
    exact number_inj _ _ (by rw [← opcField_of_match _ _ ho, opcField_of_match _ _ h])
  · rintro rfl; exact h

theorem init : Statement .init := statement_of_match _ (by decide)

theorem writeFrame (payload : List Byte) : Statement (.writeFrame payload) :=
  statement_of_match _ (by decide : (0x00000002 : Word) &&& 0xFFFFFFFF = 0x00000002)

theorem enable : Statement .enable := statement_of_match _ (by decide)

theorem disable : Statement .disable := statement_of_match _ (by decide)

theorem setPeriod (divider : Period) : Statement (.setPeriod divider) := by
  apply statement_of_match
  show (divider ++ 0x05#8) &&& 0x000000FF#32 = 0x00000005#32
  rw [show (0x000000FF#32) = 0x000000#24 ++ 0xFF#8 from rfl, BitVec.and_append]
  simp

theorem latch (level : Level) : Statement (.latch level) := by
  apply statement_of_match; cases level <;> decide

theorem shift (byte : Byte) : Statement (.shift byte) := by
  apply statement_of_match
  revert byte; decide

theorem command (cmd data : Byte) : Statement (.command cmd data) := by
  apply statement_of_match
  show (0x00#8 ++ data ++ cmd ++ 0x08#8) &&& 0xFF0000FF#32 = 0x00000008#32
  rw [show (0xFF0000FF#32) = 0xFF#8 ++ 0x00#8 ++ 0x00#8 ++ 0xFF#8 from rfl, BitVec.and_append, BitVec.and_append,
    BitVec.and_append]
  simp

theorem tick : Statement .tick := statement_of_match _ (by decide)

end Sys2Proof.Laws.TableRow
end

