-- ==== Sys2Proof/Laws/Wire.lean ====
section
/-! SUPPORT. How the CORE's event formats read on the wire. -/

namespace Sys2Proof.Machine

@[simp] theorem readWire_nil (w : Wire) : readWire w [] = w := rfl

@[simp] theorem readWire_append (w : Wire) (es fs : List Event) :
    readWire w (es ++ fs) = readWire (readWire w es) fs := List.foldl_append

@[simp] theorem readWire_cons (w : Wire) (e : Event) (es : List Event) :
    readWire w (e :: es) = readWire (w.read e) es := rfl

/-- One bit sent clock low first: sampled whatever the lines were (40_protocol_driver.md R106). -/
theorem readWire_clocked (w : Wire) (v : Bool) :
    readWire w [.line .clk false, .line .dat v, .line .clk true] =
      { w with dat := v, clkLow := false, bits := w.bits ++ [v], burst := w.burst.map (· ++ [v]) } := rfl

/-- A byte is eight sampled bits (30_encoding.md R80). -/
theorem readWire_byteEvents (w : Wire) (b : Byte) :
    readWire w (byteEvents b) =
      { w with dat := b.getLsbD 0, clkLow := false, bits := w.bits ++ byteBits b,
               burst := w.burst.map (· ++ byteBits b) } := by
  cases h : w.burst <;> simp [byteEvents, byteBits, Wire.read, h]

/-- A pixel is one sampled bit (30_encoding.md R81). -/
theorem readWire_pixelEvents (w : Wire) (c : Level) :
    readWire w (pixelEvents c) =
      { w with dat := c, clkLow := false, bits := w.bits ++ [c], burst := w.burst.map (· ++ [c]) } := rfl

/-- A run of pixels is as many sampled bits. -/
theorem readWire_pixels (xs : List ColIx) (c : ColIx → Bool) (w : Wire) (h : w.clkLow = false) :
    ∃ d, readWire w (xs.flatMap fun x => pixelEvents (c x)) =
      { w with dat := d, bits := w.bits ++ xs.map c, burst := w.burst.map (· ++ xs.map c) } := by
  induction xs generalizing w with
  | nil => exact ⟨w.dat, by cases w; simp⟩
  | cons x xs ih =>
    rw [List.flatMap_cons, readWire_append, readWire_pixelEvents]
    obtain ⟨d, hd⟩ := ih { w with dat := c x, clkLow := false, bits := w.bits ++ [c x],
                                  burst := w.burst.map (· ++ [c x]) } rfl
    exact ⟨d, by rw [hd]; cases hb : w.burst <;> simp [h]⟩

/-- The modules of a row frame, as sampled bits. -/
theorem readWire_modules (ms : List (BitVec 2)) (r : RowIx) (c : ColIx → Bool) (w : Wire) :
    ∃ d k, readWire w (ms.flatMap fun m =>
        byteEvents (rowSelect r) ++ (moduleColumns m).flatMap fun x => pixelEvents (c x)) =
      { w with dat := d, clkLow := k,
               bits := w.bits ++ ms.flatMap (fun m => byteBits (rowSelect r) ++ (moduleColumns m).map c),
               burst := w.burst.map
                 (· ++ ms.flatMap fun m => byteBits (rowSelect r) ++ (moduleColumns m).map c) } := by
  induction ms generalizing w with
  | nil => exact ⟨w.dat, w.clkLow, by cases w; simp⟩
  | cons m ms ih =>
    rw [List.flatMap_cons, readWire_append, readWire_append, readWire_byteEvents]
    obtain ⟨d, hd⟩ := readWire_pixels (moduleColumns m) c
      { w with dat := (rowSelect r).getLsbD 0, clkLow := false, bits := w.bits ++ byteBits (rowSelect r),
               burst := w.burst.map (· ++ byteBits (rowSelect r)) } rfl
    rw [hd]
    obtain ⟨d', k, hk⟩ := ih _
    exact ⟨d', k, by rw [hk]; cases hb : w.burst <;> simp⟩

/-- A row frame is one burst of the 64 bits (30_encoding.md R83), read after any wire with no burst open. -/
theorem readWire_rowFrame (r : RowIx) (c : ColIx → Bool) (w : Wire) (h : w.burst = none) :
    ∃ d k, readWire w (rowFrameEvents r c) =
      { w with dat := d, clkLow := k, bits := w.bits ++ rowFrameBits r c,
               bursts := w.bursts ++ [rowFrameBits r c] } := by
  obtain ⟨d, k, hk⟩ := readWire_modules moduleOrder r c { w with burst := some [] }
  refine ⟨d, k, ?_⟩
  have h0 : w.read (.line .lat false) = { w with burst := some [] } := by simp [Wire.read, h]
  rw [rowFrameEvents, List.cons_append, readWire_cons, readWire_append, h0, hk]
  simp [Wire.read, rowFrameBits, ← h]

/-- A command frame is one burst of 16 bits (30_encoding.md R82). -/
theorem readWire_command (cmd data : Byte) (w : Wire) (h : w.burst = none) :
    readWire w (commandEvents cmd data) =
      { w with dat := data.getLsbD 0, clkLow := false, bits := w.bits ++ (byteBits cmd ++ byteBits data),
               bursts := w.bursts ++ [byteBits cmd ++ byteBits data] } := by
  simp [commandEvents, readWire_byteEvents, Wire.read, h]

/-! ### Sizes -/

theorem length_byteEvents (b : Byte) : (byteEvents b).length = 24 := rfl

theorem length_rowFrameEvents (r : RowIx) (c : ColIx → Bool) : (rowFrameEvents r c).length = 194 := by
  simp [rowFrameEvents, moduleOrder, moduleColumns, columnOrder, length_byteEvents, pixelEvents]

theorem length_rowFrameBits (r : RowIx) (c : ColIx → Bool) : (rowFrameBits r c).length = 64 := rfl

theorem byteEvents_isLine (b : Byte) : (byteEvents b).all Event.isLine = true := rfl

theorem rowFrameEvents_isLine (r : RowIx) (c : ColIx → Bool) : (rowFrameEvents r c).all Event.isLine = true := by
  simp [rowFrameEvents, List.all_append, List.all_flatMap, byteEvents_isLine, pixelEvents, Event.isLine]

theorem vsyncs_append (es fs : List Event) : vsyncs (es ++ fs) = vsyncs es ++ vsyncs fs := List.filterMap_append

theorem vsyncs_rowFrameEvents (r : RowIx) (c : ColIx → Bool) : vsyncs (rowFrameEvents r c) = [] := rfl

end Sys2Proof.Machine
end

