-- ==== Sys2Proof/Laws/Render.lean ====
section
/-! SUPPORT. What a row render does, said once. -/

namespace Sys2Proof.Machine

/-- The output bit depends only on the pixel's two cells. -/
theorem pixelBit_congr (s t : State) (r : RowIx) (x : ColIx)
    (ha : s.readAcc (cellIndex r x) = t.readAcc (cellIndex r x))
    (hf : s.readFb (cellIndex r x) = t.readFb (cellIndex r x)) : pixelBit s r x = pixelBit t r x := by
  rw [pixelBit, ha, hf]; rfl

/-- One pixel: the accumulator cell, the data line, the clock line and three events. -/
theorem renderPixel_eq (r : RowIx) (x : ColIx) (s : State) :
    renderPixel r x s =
      { s with
        acc := s.acc.write (cellIndex r x) (s.readAcc (cellIndex r x) + s.readFb (cellIndex r x))
        dat := pixelBit s r x
        clk := true
        trace := s.trace ++ pixelEvents (pixelBit s r x) } := by
  simp only [renderPixel, pixelOut_eq, pixelCarry_eq_decide, pixelWrapped_eq_add]
  rfl

/-- The accumulator after columns `xs` of row `r`. -/
def accAfter (s : State) (r : RowIx) (xs : List ColIx) (i : Index) : Byte :=
  if indexRow i = r ∧ indexCol i ∈ xs then s.readAcc i + s.readFb i else s.readAcc i

theorem indexRow_cellIndex (r : RowIx) (c : ColIx) : indexRow (cellIndex r c) = r := by
  revert r c; decide

theorem indexCol_cellIndex (r : RowIx) (c : ColIx) : indexCol (cellIndex r c) = c := by
  revert r c; decide

theorem eq_cellIndex_iff (i : Index) (r : RowIx) (c : ColIx) : i = cellIndex r c ↔ indexRow i = r ∧ indexCol i = c := by
  constructor
  · rintro rfl; exact ⟨indexRow_cellIndex r c, indexCol_cellIndex r c⟩
  · rintro ⟨rfl, rfl⟩; exact (cellIndex_row_col i).symm

/-- A run of distinct columns of one row: each cell of them advances once, each sends its own bit, and nothing else but
the lines and the trace changes. -/
theorem renderPixels_spec (r : RowIx) (xs : List ColIx) (hx : xs.Nodup) (s : State) :
    ∃ m d k, xs.foldl (fun s x => renderPixel r x s) s =
        { s with acc := m, dat := d, clk := k,
                 trace := s.trace ++ xs.flatMap fun x => pixelEvents (pixelBit s r x) } ∧
      (∀ i, m.read i = accAfter s r xs i) ∧
      (s.acc.wf → m.wf) ∧ (xs = [] → d = s.dat) ∧ ∀ x ∈ xs.getLast?, d = pixelBit s r x := by
  induction xs generalizing s with
  | nil => exact ⟨s.acc, s.dat, s.clk, by simp, by simp [accAfter, State.readAcc], id, by simp, by simp⟩
  | cons x xs ih =>
    obtain ⟨hxn, hxs⟩ := List.nodup_cons.1 hx
    rw [List.foldl_cons]
    obtain ⟨m, d, k, he, hm, hw, hd, hl⟩ := ih hxs (renderPixel r x s)
    rw [renderPixel_eq] at he hm hw hd hl
    have hbit : ∀ y ∈ xs, pixelBit { s with
        acc := s.acc.write (cellIndex r x) (s.readAcc (cellIndex r x) + s.readFb (cellIndex r x))
        dat := pixelBit s r x
        clk := true
        trace := s.trace ++ pixelEvents (pixelBit s r x) } r y = pixelBit s r y := by
      intro y hy
      have hne : cellIndex r y ≠ cellIndex r x := fun e => hxn (((cellIndex_inj _ _ _ _).1 e).2 ▸ hy)
      exact pixelBit_congr _ _ r y (by simp [State.readAcc, Memory.read_write, hne]) rfl
    refine ⟨m, d, k, ?_, fun i => ?_, fun h => hw (Memory.wf_write _ _ _ h), by simp, fun y hy => ?_⟩
    · rw [renderPixel_eq, he]
      simp only [List.flatMap_cons, List.append_assoc, State.mk.injEq, true_and, and_true]
      congr 2
      exact congrArg List.flatten (List.map_congr_left fun y hy => by rw [hbit y hy])
    · rw [hm i]
      by_cases hi : i = cellIndex r x
      · subst hi
        simp [accAfter, indexRow_cellIndex, indexCol_cellIndex, hxn, State.readAcc, State.readFb]
      · have hn : ¬ (indexRow i = r ∧ indexCol i = x) := fun h => hi ((eq_cellIndex_iff _ _ _).2 h)
        by_cases hr : indexRow i = r <;> by_cases hc : indexCol i ∈ xs <;>
          simp_all [accAfter, State.readAcc, State.readFb, Memory.read_write]
    · cases xs with
      | nil =>
        simp only [List.getLast?_singleton, Option.mem_def, Option.some.injEq] at hy
        subst hy
        simpa using hd rfl
      | cons z zs =>
        rw [List.getLast?_cons_cons] at hy
        rw [hl y hy, hbit y (List.mem_of_getLast? hy)]

theorem renderModule_spec (r : RowIx) (m : BitVec 2) (s : State) :
    ∃ a k, renderModule r s m =
        { s with acc := a, dat := pixelBit s r (column m 7), clk := k,
                 trace := s.trace ++ (byteEvents (rowSelect r) ++
                   (moduleColumns m).flatMap fun x => pixelEvents (pixelBit s r x)) } ∧
      (∀ i, a.read i = accAfter s r (moduleColumns m) i) ∧ (s.acc.wf → a.wf) := by
  have hnd : (moduleColumns m).Nodup := by revert m; decide
  obtain ⟨a, d, k, he, ha, hw, _, hd⟩ := renderPixels_spec r (moduleColumns m) hnd (shiftOut (rowSelect r) s)
  rw [shiftOut_eq] at he ha hw hd
  refine ⟨a, k, ?_, ha, hw⟩
  have : renderModule r s m = (moduleColumns m).foldl (fun s x => renderPixel r x s) (shiftOut (rowSelect r) s) := by
    rw [moduleColumns, List.foldl_map]; rfl
  rw [this, shiftOut_eq, he, hd (column m 7) rfl]
  simp only [List.append_assoc]
  rfl

theorem renderModules_spec (r : RowIx) (ms : List (BitVec 2)) (hn : (ms.flatMap moduleColumns).Nodup) (s : State) :
    ∃ a d k, ms.foldl (renderModule r) s =
        { s with acc := a, dat := d, clk := k,
                 trace := s.trace ++ ms.flatMap fun m => byteEvents (rowSelect r) ++
                   (moduleColumns m).flatMap fun x => pixelEvents (pixelBit s r x) } ∧
      (∀ i, a.read i = accAfter s r (ms.flatMap moduleColumns) i) ∧ (s.acc.wf → a.wf) ∧
      (ms = [] → d = s.dat) ∧ ∀ m ∈ ms.getLast?, d = pixelBit s r (column m 7) := by
  induction ms generalizing s with
  | nil => exact ⟨s.acc, s.dat, s.clk, by simp, by simp [accAfter, State.readAcc], id, by simp, by simp⟩
  | cons m ms ih =>
    rw [List.flatMap_cons, List.nodup_append'] at hn
    obtain ⟨_, hms, hdis⟩ := hn
    obtain ⟨a0, k0, he0, ha0, hw0⟩ := renderModule_spec r m s
    obtain ⟨a, d, k, he, ha, hw, hd, hl⟩ := ih hms (renderModule r s m)
    have hread : ∀ x ∉ moduleColumns m, (renderModule r s m).readAcc (cellIndex r x) = s.readAcc (cellIndex r x) := by
      intro x hx
      rw [he0]
      simp [State.readAcc, ha0, accAfter, indexCol_cellIndex, hx]
    have hbit : ∀ x ∉ moduleColumns m, pixelBit (renderModule r s m) r x = pixelBit s r x := by
      intro x hx
      exact pixelBit_congr _ _ r x (hread x hx) (by rw [he0]; rfl)
    rw [he0] at hw hd
    refine ⟨a, d, k, ?_, fun i => ?_, fun h => hw (hw0 h), by simp, fun y hy => ?_⟩
    · rw [List.foldl_cons, he, List.flatMap_cons, he0]
      simp only [State.mk.injEq, true_and, and_true, List.append_assoc, List.append_cancel_left_eq]
      refine congrArg List.flatten (List.map_congr_left fun m' hm' => ?_)
      congr 1
      refine congrArg List.flatten (List.map_congr_left fun x hx => ?_)
      rw [← he0, hbit x fun hx' => hdis hx' (List.mem_flatMap.2 ⟨m', hm', hx⟩)]
    · rw [ha i]
      have hfb : (renderModule r s m).readFb i = s.readFb i := by rw [he0]; rfl
      have hacc : (renderModule r s m).readAcc i = accAfter s r (moduleColumns m) i := by
        rw [he0]; exact ha0 i
      simp only [accAfter, hfb, hacc, List.flatMap_cons, List.mem_append]
      by_cases hr : indexRow i = r <;> by_cases h1 : indexCol i ∈ moduleColumns m <;>
        by_cases h2 : indexCol i ∈ ms.flatMap moduleColumns <;> simp [hr, h1, h2]
      exact absurd h2 (hdis h1)
    · cases ms with
      | nil =>
        simp only [List.getLast?_singleton, Option.mem_def, Option.some.injEq] at hy
        subst hy
        simpa using hd rfl
      | cons z zs =>
        rw [List.getLast?_cons_cons] at hy
        rw [hl y hy, hbit]
        intro hx
        refine hdis hx (List.mem_flatMap.2 ⟨y, List.mem_of_getLast? hy, ?_⟩)
        simp [moduleColumns, columnOrder]

theorem allColumns_nodup : (moduleOrder.flatMap moduleColumns).Nodup := by decide

theorem mem_allColumns (x : ColIx) : x ∈ moduleOrder.flatMap moduleColumns := by revert x; decide

/-- The row render, whole (41_render_engine.md R132): the row's cells advance, the row frame goes out, the cursor
advances, and after row 7 the frame number is notified and the counter advances. -/
theorem rowRender_spec (s : State) :
    ∃ a, rowRender s =
        { s with
          acc := a
          dat := pixelBit s s.row 31
          clk := true
          lat := true
          row := s.row + 1
          fc := if s.row = 7 then s.fc + 1 else s.fc
          trace := s.trace ++ rowFrameEvents s.row (pixelBit s s.row) ++
            if s.row = 7 then [.vsync s.fc] else [] } ∧
      (∀ i, a.read i = if indexRow i = s.row then s.readAcc i + s.readFb i else s.readAcc i) ∧
      (s.acc.wf → a.wf) := by
  obtain ⟨a, d, k, he, ha, hw, _, hd⟩ :=
    renderModules_spec s.row moduleOrder allColumns_nodup (drive .lat false s)
  have hlast : d = pixelBit s s.row 31 := hd 3 rfl
  have hclk : k = true := by
    have h := congrArg State.clk he
    simp only [moduleOrder, columnOrder, renderModule, List.foldl_cons, List.foldl_nil, renderPixel_eq] at h
    exact h.symm
  have h7 : (s.row + 1 = 0) = (s.row = 7) := by generalize s.row = r; revert r; decide
  refine ⟨a, ?_, fun i => ?_, hw⟩
  · rw [rowRender, he, hlast, hclk, drive_lat, drive_lat, notifyFrame, advanceRow, State.setRow]
    simp only [h7]
    by_cases h : s.row = 7
    · simp only [h, if_true, rowFrameEvents, State.setFc, State.emit, List.cons_append, List.append_assoc,
        List.nil_append]
      rfl
    · simp only [h, if_false, rowFrameEvents, List.cons_append, List.append_assoc, List.append_nil]
      rfl
  · rw [ha i]
    simp only [accAfter, mem_allColumns, and_true, drive_lat]
    rfl

/-! ### `PERIOD` is not read (10_state.md R28) -/

theorem foldl_setPeriod {α : Type} (f : State → α → State) (p : Period)
    (hf : ∀ s a, f (s.setPeriod p) a = (f s a).setPeriod p) (l : List α) (s : State) :
    l.foldl f (s.setPeriod p) = (l.foldl f s).setPeriod p := by
  induction l generalizing s with
  | nil => rfl
  | cons a l ih => rw [List.foldl_cons, hf, ih, List.foldl_cons]

theorem renderPixel_setPeriod (r : RowIx) (x : ColIx) (s : State) (p : Period) :
    renderPixel r x (s.setPeriod p) = (renderPixel r x s).setPeriod p := rfl

theorem renderModule_setPeriod (r : RowIx) (m : BitVec 2) (s : State) (p : Period) :
    renderModule r (s.setPeriod p) m = (renderModule r s m).setPeriod p := by
  have h : shiftOut (rowSelect r) (s.setPeriod p) = (shiftOut (rowSelect r) s).setPeriod p := by
    rw [shiftOut_eq, shiftOut_eq]; rfl
  rw [renderModule, h, foldl_setPeriod (fun s j => renderPixel r (column m j) s) p
    (fun s j => renderPixel_setPeriod r (column m j) s p)]
  rfl

/-- A row render does the same whatever the period, and leaves it. -/
theorem rowRender_setPeriod (s : State) (p : Period) : rowRender (s.setPeriod p) = (rowRender s).setPeriod p := by
  have h : drive .lat false (s.setPeriod p) = (drive .lat false s).setPeriod p := rfl
  rw [rowRender, h, State.setPeriod_row,
    foldl_setPeriod (renderModule s.row) p (fun s m => renderModule_setPeriod _ m s p), rowRender]
  generalize moduleOrder.foldl (renderModule s.row) (drive .lat false s) = u
  by_cases h7 : u.row + 1 = 0 <;> simp only [notifyFrame, advanceRow, drive_lat, State.setRow, State.setPeriod,
    State.emit, State.setFc, h7, if_true, if_false]

end Sys2Proof.Machine
end

