-- ==== Sys2Proof/Laws/Step.lean ====
section
/-! SUPPORT. What running a request and taking a step can do, each said once (the inversion lemmas that invariants are
proved from). -/

namespace Sys2Proof.Machine

/-- The state a request leaves when no check of it fires: what `exec` answers, put in one place for proofs. -/
def effectOf (i : Instr) (s : State) : State :=
  match i with
  | .init => initEffect s
  | .writeFrame payload =>
    if h : payload.length = 256 then
      (s.setCopy (some ⟨⟨payload.toArray, by simpa using h⟩, copyOrder s.draws, 0⟩)).countDraw
    else s
  | .enable => (s.setMode .enabled).emit (.timer .attach)
  | .disable => (s.setMode .disabled).emit (.timer .detach)
  | .setPeriod divider => (s.setPeriod divider).emit (.timer (.period divider))
  | .latch level => drive .lat level s
  | .shift byte => shiftOut byte s
  | .command cmd data => drive .lat true (shiftOut data (shiftOut cmd (drive .lat false s)))
  | .tick => if s.mode = .enabled then rowRender s else s

/-- INIT, field by field (10_state.md R39). -/
theorem initEffect_eq (s : State) :
    initEffect s =
      { s with
        mode := .disabled, row := 0, fc := 0, period := Config.pInit, dat := false, clk := true, lat := true
        fb := s.fb.fill fun _ => 0, acc := s.acc.fill (Config.seed s.draws), draws := s.draws + 1
        trace := s.trace ++
          [.line .dat false, .line .clk true, .line .lat true, .timer (.prepare Config.pInit)] } := by
  simp only [initEffect, drive_dat, drive_clk, drive_lat, State.fillFb, State.fillAcc, State.countDraw, State.setRow,
    State.setFc, State.setPeriod, State.emit, State.setMode, List.append_assoc, List.cons_append, List.nil_append]

/-- WRITE_FRAME, field by field, for a payload of the right size. -/
theorem writeFrameEffect_eq (payload : List Byte) (s : State) (h : payload.length = 256) :
    effectOf (.writeFrame payload) s =
      { s with copy := some ⟨⟨payload.toArray, by simpa using h⟩, copyOrder s.draws, 0⟩, draws := s.draws + 1 } := by
  simp only [effectOf, h, dif_pos]
  rfl

/-- WRITE_FRAME with a payload of another size has no effect of its own. -/
theorem writeFrameEffect_bad (payload : List Byte) (s : State) (h : payload.length ≠ 256) :
    effectOf (.writeFrame payload) s = s := by
  simp only [effectOf, h, dif_neg, not_false_eq_true]

/-- COMMAND, field by field. -/
theorem commandEffect_eq (cmd data : Byte) (s : State) :
    effectOf (.command cmd data) s =
      { s with dat := data.getLsbD 0, clk := true, lat := true, trace := s.trace ++ commandEvents cmd data } := by
  simp [effectOf, drive_lat, shiftOut_eq, commandEvents]

/-- TICK while ENABLED. -/
theorem tickEffect_enabled (s : State) (h : s.mode = .enabled) : effectOf .tick s = rowRender s := by
  simp only [effectOf, h, if_true]

/-- TICK otherwise. -/
theorem tickEffect_ignored (s : State) (h : s.mode ≠ .enabled) : effectOf .tick s = s := by
  simp only [effectOf, h, if_false]

/-- SHIFT, field by field. -/
theorem shiftEffect_eq (byte : Byte) (s : State) :
    effectOf (.shift byte) s =
      { s with dat := byte.getLsbD 0, clk := true, trace := s.trace ++ byteEvents byte } := shiftOut_eq byte s

/-- A request that the prelude and its own check let through. -/
theorem exec_effect (i : Instr) (s : State) (h : Running s) (hc : i ≠ .tick → s.copy = none)
    (hf : faultOf i s.mode = none) : exec i s = .next (effectOf i s) := by
  cases i with
  | tick => exact unlessStopped_running s _ h
  | init =>
    have := hostStep_ready s (.next (if s.mode = .uninit then initEffect s else raiseFault .reinit (encodeWord .init) s))
      ⟨h, hc (by simp)⟩
    rw [exec, execInit, this]
    rcases hm : s.mode with _ | _ | _ <;> simp_all [faultOf, effectOf]
  | _ =>
    have hq : ∀ run, hostStep s run = run := fun run => hostStep_ready s run ⟨h, hc (by simp)⟩
    rcases hm : s.mode with _ | _ | _ <;>
      simp_all [faultOf, effectOf, exec, execWriteFrame, execEnable, execDisable, execSetPeriod, execLatch, execShift,
        execCommand, busRequest, hostRequest]

/-- A request that a check turns into a fault. -/
theorem exec_fault (i : Instr) (s : State) (h : HostReady s) (c : FaultCode) (hf : faultOf i s.mode = some c) :
    exec i s = .next (raiseFault c (encodeWord i) s) := by
  have hs : ∀ run, hostStep s run = run := fun run => hostStep_ready s run h
  rcases hm : s.mode with _ | _ | _ <;> cases i <;>
    simp_all [faultOf, exec, execInit, execWriteFrame, execEnable, execDisable, execSetPeriod, execLatch, execShift,
      execCommand, busRequest, hostRequest]

/-- What the stop of a request can be. -/
theorem exec_stop (i : Instr) (s : State) (h : ¬ Running s) : ∃ f, stopped s = some f ∧ exec i s = .fault f := by
  have key : ∀ run, ∃ f, stopped s = some f ∧ unlessStopped s run = .fault f := fun run => by
    rcases unlessStopped_cases s run with ⟨hr, _⟩ | ⟨_, hf⟩
    · exact absurd hr h
    · exact hf
  cases i <;> exact key _

/-- A host request while a copy is in flight. -/
theorem exec_held (i : Instr) (s : State) (h : Running s) (hi : i ≠ .tick) (hc : s.copy ≠ none) :
    exec i s = .fault .hostHeld := by
  have key : ∀ run, hostStep s run = .fault .hostHeld := fun run => by
    rw [hostStep, unlessStopped_running s _ h, if_pos (Option.isSome_iff_ne_none.2 hc)]
  cases i <;> first | exact absurd rfl hi | exact key _

/-- When a request answers a next state: it raised its fault, or it had its effect. -/
theorem exec_next (i : Instr) (s t : State) (h : exec i s = .next t) :
    Running s ∧ (i ≠ .tick → s.copy = none) ∧
      ((∃ c, faultOf i s.mode = some c ∧ t = raiseFault c (encodeWord i) s) ∨
        (faultOf i s.mode = none ∧ t = effectOf i s)) := by
  by_cases hr : Running s
  · have hc : i ≠ .tick → s.copy = none := fun hi => by
      by_contra hn
      rw [exec_held i s hr hi hn] at h; cases h
    refine ⟨hr, hc, ?_⟩
    rcases hf : faultOf i s.mode with _ | c
    · rw [exec_effect i s hr hc hf] at h
      cases h
      exact .inr ⟨rfl, rfl⟩
    · by_cases hi : i = .tick
      · subst hi
        rcases hm : s.mode with _ | _ | _ <;> rw [hm] at hf <;> cases hf
      · rw [exec_fault i s ⟨hr, hc hi⟩ c hf] at h
        cases h
        exact .inl ⟨c, rfl, rfl⟩
  · obtain ⟨f, _, he⟩ := exec_stop i s hr
    rw [he] at h; cases h

/-- No request is refused by the model. -/
theorem exec_not_refused (i : Instr) (s : State) (r : Refusal) : exec i s ≠ .refused r := by
  by_cases hr : Running s
  · by_cases hc : i ≠ .tick → s.copy = none
    · rcases hf : faultOf i s.mode with _ | c
      · rw [exec_effect i s hr hc hf]; simp
      · by_cases hi : i = .tick
        · subst hi; rcases hm : s.mode with _ | _ | _ <;> rw [hm] at hf <;> cases hf
        · rw [exec_fault i s ⟨hr, hc hi⟩ c hf]; simp
    · obtain ⟨hi, hn⟩ := Classical.not_imp.1 hc
      rw [exec_held i s hr hi hn]; simp
  · obtain ⟨f, _, he⟩ := exec_stop i s hr
    rw [he]; simp

/-! ### Ports -/

theorem checkWord_port (p : Port) (w : Word) (o : Opcode) (h : checkWord p w = .ok o) : o.port = p := by
  unfold checkWord at h
  split at h
  · cases h
  · split at h
    · cases h
    · split at h
      · cases h
      · cases h; simp_all

/-- What a port accepts is its own: the host port no TICK, the timer port nothing else. -/
theorem decodePort_port (p : Port) (w : Word) (payload : List Byte) (i : Instr) (h : decodePort p w payload = .ok i) :
    i.opcode.port = p := by
  unfold decodePort at h
  split at h
  · cases h
  · rename_i o ho
    cases h
    rw [← checkWord_port p w o ho]
    cases o <;> rfl

theorem ne_tick_of_host (i : Instr) (h : i.opcode.port = .host) : i ≠ .tick := by
  rintro rfl; cases h

/-! ### The step -/

/-- When a step answers a next state: the copy agent moved (or nothing did), a word was refused, or a request ran. -/
theorem step_next (s t : State) (h : step s = .next t) :
    Running s ∧
      ((∃ rest, t = copyStep (s.setTurns rest)) ∨
        (∃ r w rest, t = refuse r w (s.setTurns rest)) ∨
        (∃ i rest, (i ≠ .tick → s.copy = none) ∧ exec i (s.setTurns rest) = .next t)) := by
  obtain ⟨hr, h⟩ := unlessStopped_next _ _ _ h
  refine ⟨hr, ?_⟩
  have present : ∀ p w payload rest, presentOn p w payload (s.setTurns rest) = .next t →
      (∃ r w rest, t = refuse r w (s.setTurns rest)) ∨
        (∃ i rest, (i ≠ .tick → s.copy = none) ∧ exec i (s.setTurns rest) = .next t) := by
    intro p w payload rest h
    unfold presentOn at h
    split at h
    · cases h; exact .inl ⟨_, _, _, rfl⟩
    · exact .inr ⟨_, _, fun hi => (exec_next _ _ _ h).2.1 hi, h⟩
  split at h
  · cases h; exact .inl ⟨s.turns, rfl⟩
  · cases h; exact .inl ⟨_, rfl⟩
  · exact .inr (present _ _ _ _ h)
  · unfold hostTurn at h
    split at h
    · cases h; exact .inl ⟨s.turns, rfl⟩
    · exact .inr (present _ _ _ _ h)

/-- While the machine runs, a step answers a next state. -/
theorem step_running (s : State) (h : Running s) : ∃ t, step s = .next t := by
  have hp : ∀ p w payload rest, (p = .timer ∨ s.copy = none) → ∃ t, presentOn p w payload (s.setTurns rest) = .next t := by
    intro p w payload rest hpc
    unfold presentOn
    split
    · exact ⟨_, rfl⟩
    · rename_i i hi
      have hport := decodePort_port _ _ _ _ hi
      have hc : i ≠ .tick → (s.setTurns rest).copy = none := fun hne => by
        rcases hpc with rfl | hc
        · cases i <;> first | exact absurd rfl hne | cases hport
        · exact hc
      rcases hf : faultOf i (s.setTurns rest).mode with _ | c
      · exact ⟨_, exec_effect i (s.setTurns rest) h hc hf⟩
      · by_cases hi : i = .tick
        · subst hi; rcases hm : s.mode with _ | _ | _ <;> simp [hm, faultOf] at hf
        · exact ⟨_, exec_fault i (s.setTurns rest) ⟨h, hc hi⟩ c hf⟩
  unfold step nextStep
  rw [unlessStopped_running s _ h]
  split
  · exact ⟨_, rfl⟩
  · exact ⟨_, rfl⟩
  · exact hp _ _ _ _ (.inl rfl)
  · unfold hostTurn
    split
    · exact ⟨_, rfl⟩
    · rename_i hc
      exact hp _ _ _ _ (.inr (by simpa using hc))

/-- After a fault or a refusal no step is taken. -/
theorem step_stopped (s : State) (h : ¬ Running s) : ∃ f, stopped s = some f ∧ step s = .fault f := by
  rcases unlessStopped_cases s _ with ⟨hr, _⟩ | ⟨_, hf⟩
  · exact absurd hr h
  · exact hf

/-! ### Runs -/

theorem runSteps_succ (k : Nat) (s t : State) (h : step s = .next t) : runSteps (k + 1) s = runSteps k t := by
  rw [runSteps, h]

/-- A run splits where its first part ends. -/
theorem runSteps_add (j k : Nat) (s t : State) (h : runSteps j s = .next t) : runSteps (j + k) s = runSteps k t := by
  induction j generalizing s with
  | zero => cases h; rw [Nat.zero_add]
  | succ j ih =>
    rw [runSteps] at h
    rw [Nat.add_right_comm, runSteps]
    rcases hs : step s with u | f | r
    · rw [hs] at h; exact ih u h
    · rw [hs] at h; cases h
    · rw [hs] at h; cases h

/-- These are the runs of the host's interface. -/
theorem runSteps_eq_core_run (k : Nat) (s : State) : runSteps k s = Host.Core.run Sys2Proof.core k s := by
  induction k generalizing s with
  | zero => rfl
  | succ k ih =>
    rw [runSteps]
    rcases h : step s with t | f | r <;> simp only [Host.Core.run, show Sys2Proof.core.step s = _ from h]
    · exact ih t
    · rfl
    · rfl

/-! ### The copy step -/

/-- With no copy in flight nothing changes. -/
theorem copyStep_none (s : State) (h : s.copy = none) : copyStep s = s := by
  unfold copyStep; rw [h]

/-- With a copy in flight one byte of the frame is written and the count advances (42_lifecycle.md R162). -/
theorem copyStep_some (s : State) (c : Copy) (h : s.copy = some c) :
    copyStep s =
      { s with
        fb := s.fb.write c.order[c.next.val] (payloadAt c.payload c.order[c.next.val])
        copy := copyAfterWrite c } := by
  unfold copyStep; rw [h]; rfl

end Sys2Proof.Machine
end

