-- ==== Sys2Proof/Tests/Slice0.lean ====
section
/-! SUPPORT. Tests whose expected results are the spec's own (95_test_vectors.md, and words written bit by bit from
30_encoding.md R73), and for every statement with hypotheses a state and operands that meet them. -/

namespace Sys2Proof.Tests

open Sys2Proof.Machine

/-- A payload of `n` black pixels. -/
def black (n : Nat) : List Byte := List.replicate n 0

theorem length_black (n : Nat) : (black n).length = n := List.length_replicate

/-! ## Well-formedness -/

/-- 30_encoding.md R77: a payload one byte short, and one byte long, is not well formed; 256 bytes are. -/
theorem test_wellFormed_writeFrame :
    ¬ WellFormed (.writeFrame (black 255)) ∧ ¬ WellFormed (.writeFrame (black 257)) ∧
      WellFormed (.writeFrame (black 256)) := by
  simp [WellFormed, Instr.wellFormed, Config.frameBytes, length_black]

/-- The other requests carry no check. -/
theorem test_wellFormed_others :
    WellFormed .init ∧ WellFormed .enable ∧ WellFormed .disable ∧ WellFormed (.setPeriod 0xFFFFFF) ∧
      WellFormed (.latch true) ∧ WellFormed (.shift 0xFF) ∧ WellFormed (.command 0xFF 0xFF) ∧ WellFormed .tick := by
  decide

/-! ## Decoding: the word patterns of 30_encoding.md R73, written out bit by bit -/

theorem test_decode_init :
    decodePort .host (0b00000000#8 ++ 0b00000000#8 ++ 0b00000000#8 ++ 0b00000001#8) [] = .ok .init := rfl

theorem test_decode_writeFrame :
    decodePort .host (0b00000000#8 ++ 0b00000000#8 ++ 0b00000000#8 ++ 0b00000010#8) [7, 9] =
      .ok (.writeFrame [7, 9]) := rfl

theorem test_decode_enable :
    decodePort .host (0b00000000#8 ++ 0b00000000#8 ++ 0b00000000#8 ++ 0b00000011#8) [] = .ok .enable := rfl

theorem test_decode_disable :
    decodePort .host (0b00000000#8 ++ 0b00000000#8 ++ 0b00000000#8 ++ 0b00000100#8) [] = .ok .disable := rfl

/-- The operand's bytes differ, so an exchanged byte would show. -/
theorem test_decode_setPeriod :
    decodePort .host (0b10000001#8 ++ 0b01100110#8 ++ 0b00001111#8 ++ 0b00000101#8) [] =
      .ok (.setPeriod 0x81660F) := rfl

theorem test_decode_latch :
    decodePort .host (0b00000000#8 ++ 0b00000000#8 ++ 0b00000001#8 ++ 0b00000110#8) [] = .ok (.latch true) ∧
      decodePort .host (0b00000000#8 ++ 0b00000000#8 ++ 0b00000000#8 ++ 0b00000110#8) [] = .ok (.latch false) :=
  ⟨rfl, rfl⟩

theorem test_decode_shift :
    decodePort .host (0b00000000#8 ++ 0b00000000#8 ++ 0b10100101#8 ++ 0b00000111#8) [] = .ok (.shift 0xA5) := rfl

/-- `eeeeeeee` is the data byte, `cccccccc` the command byte. -/
theorem test_decode_command :
    decodePort .host (0b00000000#8 ++ 0b00000001#8 ++ 0b00001100#8 ++ 0b00001000#8) [] =
      .ok (.command 0x0C 0x01) := rfl

theorem test_decode_tick :
    decodePort .timer (0b00000000#8 ++ 0b00000000#8 ++ 0b00000000#8 ++ 0b00010000#8) [] = .ok .tick := rfl

/-- 95_test_vectors.md V57, V58, V62, and the ends of the reserved ranges of 30_encoding.md R76. -/
theorem test_decode_reserved :
    decodePort .host 0x00000000 [] = .error .reservedOpcode ∧ decodePort .host 0x00000009 [] = .error .reservedOpcode ∧
      decodePort .host 0x0000000F [] = .error .reservedOpcode ∧
      decodePort .timer 0x00000011 [] = .error .reservedOpcode ∧
      decodePort .host 0x000000FF [] = .error .reservedOpcode := ⟨rfl, rfl, rfl, rfl, rfl⟩

/-- 95_test_vectors.md V59, V60, and the last host code on the timer port. -/
theorem test_decode_wrongPort :
    decodePort .host 0x00000010 [] = .error .wrongPort ∧ decodePort .timer 0x00000001 [] = .error .wrongPort ∧
      decodePort .timer 0x00000008 [] = .error .wrongPort := ⟨rfl, rfl, rfl⟩

/-- 95_test_vectors.md V61, V63 to V66. -/
theorem test_decode_mbz :
    decodePort .timer 0x00000110 [] = .error .nonzeroMbz ∧ decodePort .host 0x00000101 [] = .error .nonzeroMbz ∧
      decodePort .host 0x00000206 [] = .error .nonzeroMbz ∧ decodePort .host 0x00010007 [] = .error .nonzeroMbz ∧
      decodePort .host 0x01000008 [] = .error .nonzeroMbz := ⟨rfl, rfl, rfl, rfl, rfl⟩

/-- The words of 95_test_vectors.md V20 to V26 and V39 to V45, from the encoder. -/
theorem test_encode :
    encodeWord .init = 0x00000001 ∧ encodeWord (.writeFrame []) = 0x00000002 ∧ encodeWord .enable = 0x00000003 ∧
      encodeWord .disable = 0x00000004 ∧ encodeWord (.setPeriod 1000) = 0x0003E805 ∧
      encodeWord (.latch true) = 0x00000106 ∧ encodeWord (.shift 0xA5) = 0x0000A507 ∧
      encodeWord (.command 0x0C 0x01) = 0x00010C08 ∧ encodeWord .tick = 0x00000010 := by decide

/-! ## Operands, flags and arrays -/

/-- The parameters of 00_scope.md R6 agree with one another. -/
theorem test_config : Config.modules * Config.colsPerModule = Config.cols ∧
    Config.rows * Config.cols = Config.frameBytes := by decide

/-- 20_memory.md R51: the four indices it names. -/
theorem test_index : cellIndex 0 0 = 0 ∧ cellIndex 0 31 = 31 ∧ cellIndex 1 0 = 32 ∧ cellIndex 7 31 = 255 := by decide

/-- 41_render_engine.md R133: the first and last column of modules 0, 1 and 3. -/
theorem test_column : column 0 0 = 0 ∧ column 0 7 = 7 ∧ column 1 0 = 8 ∧ column 3 0 = 24 ∧ column 3 7 = 31 := by decide

/-- 30_encoding.md R84. -/
theorem test_rowSelect : [0, 1, 2, 3, 4, 5, 6, 7].map rowSelect = [1, 2, 3, 4, 5, 6, 7, 8] := by decide

/-- 95_test_vectors.md V1 to V6: (a, f) gives the accumulator and C. -/
theorem test_pixel_overflow :
    [(0, 0), (0, 255), (255, 255), (1, 255), (255, 1), (128, 128)].map
        (fun p : Byte × Byte => (pixelWrapped p.1 p.2, pixelCarry p.1 p.2)) =
      [(0, false), (255, false), (254, true), (0, true), (0, true), (0, true)] := by decide

/-- 95_test_vectors.md V7 to V12. -/
theorem test_pixel_edges :
    [(127, 128), (200, 100), (255, 0), (0, 1), (100, 156), (100, 155)].map
        (fun p : Byte × Byte => (pixelWrapped p.1 p.2, pixelCarry p.1 p.2)) =
      [(255, false), (44, true), (255, false), (1, false), (0, true), (255, false)] := by decide

/-- The canonical form: cells out of order, repeated, out of range or equal to an unlisted cell are not in it. -/
theorem test_memory_wf :
    Memory.wf [(3, 7), (255, 1)] ∧ ¬ Memory.wf [(9, 7), (3, 1)] ∧ ¬ Memory.wf [(3, 7), (3, 1)] ∧
      ¬ Memory.wf [(256, 7)] ∧ ¬ Memory.wf [(3, 0)] := by decide

/-- Writing keeps the cells in order, and writing what an unlisted cell reads as removes the cell. -/
theorem test_memory_write :
    Memory.write [(3, 7), (9, 1)] 5 2 = [(3, 7), (5, 2), (9, 1)] ∧ Memory.write [(3, 7), (9, 1)] 3 0 = [(9, 1)] := by
  decide

/-! ## States for the tests -/

/-- A machine in a mode, with nothing else changed from power-on. -/
def inMode (m : Mode) : State := { State.reset with mode := m }

/-- A machine in a mode, with turns to come. -/
def withTurns (m : Mode) (turns : List Turn) : State := { inMode m with turns := turns }

/-- A copy of a black frame, with `n` bytes written. -/
def blackCopy (n : Fin 256) : Copy := ⟨Vector.replicate 256 0, copyOrder 0, n⟩

/-- An ENABLED machine with that copy in flight. -/
def copying (n : Fin 256) (turns : List Turn) : State := { withTurns .enabled turns with copy := some (blackCopy n) }

/-! ## One step each -/

/-- 95_test_vectors.md V39: what INIT emits, and the mode it leaves. -/
theorem test_init :
    ∃ t, exec .init State.reset = .next t ∧ t.mode = .disabled ∧
      t.trace = [.line .dat false, .line .clk true, .line .lat true, .timer (.prepare Config.pInit)] :=
  ⟨_, rfl, rfl, rfl⟩

/-- 95_test_vectors.md V50: a second INIT. -/
theorem test_init_twice :
    exec .init (inMode .disabled) = .next { inMode .disabled with fault := some ⟨.reinit, 0x00000001⟩ } := rfl

/-- 95_test_vectors.md V48: before INIT the size of a payload is not looked at. -/
theorem test_writeFrame_uninit :
    exec (.writeFrame (black 10)) State.reset =
      .next { State.reset with fault := some ⟨.notInitialized, 0x00000002⟩ } := rfl

/-- 95_test_vectors.md V53, V54. -/
theorem test_writeFrame_size :
    exec (.writeFrame (black 255)) (inMode .disabled) =
        .next { inMode .disabled with fault := some ⟨.badFrameSize, 0x00000002⟩ } ∧
      exec (.writeFrame (black 257)) (inMode .disabled) =
        .next { inMode .disabled with fault := some ⟨.badFrameSize, 0x00000002⟩ } :=
  ⟨exec_fault _ _ (by decide) _ (by simp [faultOf, inMode, length_black]), exec_fault _ _ (by decide) _ (by simp [faultOf, inMode, length_black])⟩

/-- 95_test_vectors.md V40. -/
theorem test_enable :
    exec .enable (inMode .disabled) = .next { inMode .enabled with trace := [.timer .attach] } := rfl

/-- 95_test_vectors.md V51, V47. -/
theorem test_enable_faults :
    exec .enable (inMode .enabled) = .next { inMode .enabled with fault := some ⟨.enableWhileEnabled, 0x00000003⟩ } ∧
      exec .enable State.reset = .next { State.reset with fault := some ⟨.notInitialized, 0x00000003⟩ } :=
  ⟨rfl, rfl⟩

/-- 95_test_vectors.md V41: DISABLE with the cursor at 3 leaves it there. -/
theorem test_disable :
    exec .disable { inMode .enabled with row := 3 } =
      .next { inMode .disabled with row := 3, trace := [.timer .detach] } := rfl

/-- 95_test_vectors.md V52. -/
theorem test_disable_fault :
    exec .disable (inMode .disabled) =
      .next { inMode .disabled with fault := some ⟨.disableWhileDisabled, 0x00000004⟩ } := rfl

/-- 95_test_vectors.md V42 to V44. -/
theorem test_setPeriod :
    exec (.setPeriod 1000) (inMode .disabled) =
        .next { inMode .disabled with period := 1000, trace := [.timer (.period 1000)] } ∧
      exec (.setPeriod 0) { inMode .enabled with period := 5 } =
        .next { inMode .enabled with period := 0, trace := [.timer (.period 0)] } ∧
      exec (.setPeriod 0xFFFFFF) (inMode .disabled) =
        .next { inMode .disabled with period := 0xFFFFFF, trace := [.timer (.period 16777215)] } := ⟨rfl, rfl, rfl⟩

/-- 95_test_vectors.md V20, V21. -/
theorem test_latch :
    exec (.latch false) { inMode .disabled with lat := true } =
        .next { inMode .disabled with lat := false, trace := [.line .lat false] } ∧
      exec (.latch true) (inMode .disabled) =
        .next { inMode .disabled with lat := true, trace := [.line .lat true] } := ⟨rfl, rfl⟩

/-- 95_test_vectors.md V56. -/
theorem test_latch_busy :
    exec (.latch false) (inMode .enabled) = .next { inMode .enabled with fault := some ⟨.busBusy, 0x00000006⟩ } := rfl

/-- 95_test_vectors.md V22: the end levels, the 24 events, the first six in full, the sampled bits. -/
theorem test_shift :
    ∃ t, exec (.shift 0xA5) (inMode .disabled) = .next t ∧ t.clk = true ∧ t.dat = true ∧ t.trace.length = 24 ∧
      t.trace.take 6 = [.line .clk false, .line .dat true, .line .clk true,
        .line .clk false, .line .dat false, .line .clk true] ∧
      sampledBits t.trace = [true, false, true, false, false, true, false, true] :=
  ⟨_, rfl, rfl, rfl, by decide, by decide, by decide⟩

/-- 95_test_vectors.md V55. -/
theorem test_shift_busy :
    exec (.shift 0xA5) (inMode .enabled) = .next { inMode .enabled with fault := some ⟨.busBusy, 0x0000A507⟩ } := rfl

/-- 95_test_vectors.md V25. -/
theorem test_command :
    ∃ t, exec (.command 0x0C 0x01) (inMode .disabled) = .next t ∧ t.lat = true ∧ t.clk = true ∧ t.dat = true ∧
      t.trace.length = 50 ∧
      burstsOf t.trace = [[false, false, false, false, true, true, false, false,
        false, false, false, false, false, false, false, true]] :=
  ⟨_, rfl, rfl, rfl, rfl, by decide, by decide⟩

/-- 95_test_vectors.md V26: data all zeros leaves the data line low. -/
theorem test_command_zero :
    ∃ t, exec (.command 0xFF 0x00) (inMode .disabled) = .next t ∧ t.dat = false ∧
      sampledBits t.trace = List.replicate 8 true ++ List.replicate 8 false := ⟨_, rfl, rfl, by decide⟩

/-- 95_test_vectors.md V35: row 7, and the frame counter wraps. -/
theorem test_tick_wraps :
    ∃ t, exec .tick { inMode .enabled with row := 7, fc := 0xFFFFFFFF } = .next t ∧ t.row = 0 ∧ t.fc = 0 ∧
      t.trace.getLast? = some (.vsync 0xFFFFFFFF) := ⟨_, rfl, rfl, rfl, by decide +kernel⟩

/-- 95_test_vectors.md V37, V38. -/
theorem test_tick_ignored :
    exec .tick { inMode .disabled with row := 3, fc := 4 } = .next { inMode .disabled with row := 3, fc := 4 } ∧
      exec .tick State.reset = .next State.reset := ⟨rfl, rfl⟩

/-- 95_test_vectors.md V49: a refusal comes before a fault. -/
theorem test_refusal_first :
    step (withTurns .uninit [.host 0x00000009 []]) =
      .next { State.reset with refused := some ⟨.reservedOpcode, 0x00000009⟩ } := rfl

/-- 95_test_vectors.md V67: a recorded fault is sticky. -/
theorem test_sticky :
    step { withTurns .disabled [.host 0x00000003 []] with fault := some ⟨.reinit, 0x00000001⟩ } =
      .fault .faultRecorded := rfl

/-- 42_lifecycle.md R162, 60_exceptions.md R206: while a copy is in flight the host's word waits. -/
theorem test_host_held :
    ∃ t, step (copying 0 [.host 0x00000004 []]) = .next t ∧ t.turns = [.host 0x00000004 []] ∧ t.mode = .enabled :=
  ⟨_, rfl, rfl, rfl⟩

/-! ## Witnesses: states and operands that meet the hypotheses of the statements, clause by clause -/

theorem test_witness_AcceptedWordIsItsRequestsWord :
    decodePort .host 0x00000106 [] = .ok (.latch true) ∧ decodePort .timer 0x00000010 [] = .ok .tick := ⟨rfl, rfl⟩

/-- Both ends of each range, on the timer port; and a word of TICK's code on the host port. -/
theorem test_witness_TimerPortTakesOnlyTick :
    decodePort .timer 0x00000010 [] = .ok .tick ∧ decodePort .timer 0xFFFFFF01 [] = .error .wrongPort ∧
      decodePort .timer 0x00000008 [] = .error .wrongPort ∧ decodePort .timer 0x80000010 [] = .error .nonzeroMbz ∧
      decodePort .timer 0x00000100 [] = .error .reservedOpcode ∧
      decodePort .timer 0x00000009 [] = .error .reservedOpcode ∧
      decodePort .timer 0x0000000F [] = .error .reservedOpcode ∧
      decodePort .host 0xFFFFFF10 [] = .error .wrongPort := ⟨rfl, rfl, rfl, rfl, rfl, rfl, rfl, rfl⟩

theorem test_witness_OperandsAreUnsignedFields :
    decodePort .host 0xFFFFFF05 [] = .ok (.setPeriod 0xFFFFFF) ∧ decodePort .host 0x00000106 [] = .ok (.latch true) ∧
      decodePort .host 0x0000FF07 [] = .ok (.shift 0xFF) ∧ decodePort .host 0x00FF8008 [] = .ok (.command 0x80 0xFF) ∧
      decodePort .host 0x00000002 [1] = .ok (.writeFrame [1]) := ⟨rfl, rfl, rfl, rfl, rfl⟩

theorem test_witness_StepRunsDecodedRequest :
    HostReady (withTurns .disabled [.host 0x00000003 []]) ∧ decodePort .host 0x00000003 [] = .ok .enable ∧
      Running (copying 7 [.timer 0x00000010]) ∧ decodePort .timer 0x00000010 [] = .ok .tick :=
  ⟨⟨⟨rfl, rfl⟩, rfl⟩, rfl, ⟨rfl, rfl⟩, rfl⟩

theorem test_witness_PresentedWordRunsNext :
    decodeTableWord 32 0x00000003 = some .enable ∧ decodeTableWord 32 0x00000010 = some .tick := ⟨rfl, rfl⟩

theorem test_witness_RefusedWordIsRecorded :
    HostReady (withTurns .enabled [.host 0x00000206 []]) ∧ decodePort .host 0x00000206 [] = .error .nonzeroMbz ∧
      Running (copying 255 [.timer 0x00000001]) ∧ decodePort .timer 0x00000001 [] = .error .wrongPort :=
  ⟨⟨⟨rfl, rfl⟩, rfl⟩, rfl, ⟨rfl, rfl⟩, rfl⟩

/-- At every count, with a host word next: the first, the last but one and the last byte of a copy are among them. -/
theorem test_witness_CopyHoldsTheHost :
    (∀ n, Running (copying n [.host 0x00000004 []]) ∧ (copying n [.host 0x00000004 []]).copy = some (blackCopy n) ∧
        (copying n [.host 0x00000004 []]).turns = .host 0x00000004 [] :: []) ∧
      (blackCopy 0).next.val < 255 ∧ (blackCopy 254).next.val < 255 ∧ (blackCopy 255).next.val = 255 :=
  ⟨fun _ => ⟨⟨rfl, rfl⟩, rfl, rfl⟩, by decide, by decide, rfl⟩

/-- A step that records a fault, and one that records a refusal. -/
theorem test_witness_FaultsAndRefusalsArePrecise :
    (∃ t, step (withTurns .enabled [.host 0x00000003 []]) = .next t ∧ t.fault ≠ none) ∧
      ∃ t, step (withTurns .enabled [.timer 0x00000003]) = .next t ∧ t.refused ≠ none :=
  ⟨⟨_, rfl, by decide⟩, ⟨_, rfl, by decide⟩⟩

/-- A state for each fault of the table, with its request. -/
theorem test_witness_FaultCodesAsTabled :
    HostReady State.reset ∧ faultOf .disable State.reset.mode = some .notInitialized ∧
      HostReady (inMode .disabled) ∧ faultOf .init (inMode .disabled).mode = some .reinit ∧
      faultOf (.writeFrame []) (inMode .disabled).mode = some .badFrameSize ∧
      faultOf .disable (inMode .disabled).mode = some .disableWhileDisabled ∧
      HostReady (inMode .enabled) ∧ faultOf .enable (inMode .enabled).mode = some .enableWhileEnabled ∧
      faultOf (.shift 0) (inMode .enabled).mode = some .busBusy := by decide

theorem test_witness_NothingBeforeInit : HostReady State.reset ∧ State.reset.mode = .uninit := by decide

/-- A machine whose other fields hold anything. -/
theorem test_witness_UnspecifiedValuesNeverMatter :
    HostReady State.reset ∧ State.reset.mode = .uninit ∧
      ∀ row fc period dat clk lat fb acc,
        let u : State := { State.reset with
          row := row, fc := fc, period := period, dat := dat, clk := clk, lat := lat, fb := fb, acc := acc }
        u = { State.reset with
          row := u.row, fc := u.fc, period := u.period, dat := u.dat, clk := u.clk, lat := u.lat
          fb := u.fb, acc := u.acc } := ⟨by decide, rfl, fun _ _ _ _ _ _ _ _ => rfl⟩

theorem test_witness_InitResult :
    (HostReady State.reset ∧ State.reset.mode = .uninit) ∧ HostReady (inMode .enabled) ∧
      (inMode .enabled).mode ≠ .uninit := by decide

theorem test_witness_WriteFrameResult :
    HostReady (inMode .enabled) ∧ (inMode .enabled).mode ≠ .uninit ∧ (black 256).length = 256 ∧
      (black 257).length ≠ 256 := 
  ⟨by decide, by decide, length_black _, by simp [length_black]⟩

/-- ENABLE, DISABLE, LATCH, SHIFT, COMMAND: each says something of either mode. -/
theorem test_witness_ModeResults :
    (HostReady (inMode .disabled) ∧ (inMode .disabled).mode = .disabled) ∧ HostReady (inMode .enabled) ∧
      (inMode .enabled).mode = .enabled := by decide

theorem test_witness_SetPeriodResult : HostReady (inMode .enabled) ∧ (inMode .enabled).mode ≠ .uninit := by decide

theorem test_witness_CommandEqualsFourRequests :
    HostReady (inMode .disabled) ∧ (inMode .disabled).mode = .disabled := by decide

theorem test_witness_ShiftSamplesItsByte : HostReady (inMode .disabled) ∧ (inMode .disabled).mode = .disabled := by
  decide

/-- Also after a LATCH 0 with no LATCH 1 yet. -/
theorem test_witness_CommandIsOneBurst :
    HostReady { inMode .disabled with trace := [.line .lat false] } ∧
      { inMode .disabled with trace := [.line .lat false] }.mode = .disabled := by decide

/-- A TICK in each mode, and one between two copy steps. -/
theorem test_witness_TickResult :
    (Running (copying 3 []) ∧ (copying 3 []).mode = .enabled) ∧ Running (inMode .disabled) ∧
      (inMode .disabled).mode ≠ .enabled := ⟨⟨⟨rfl, rfl⟩, rfl⟩, by decide⟩

theorem test_witness_RowFrameOnTheWire :
    Running (inMode .enabled) ∧ (inMode .enabled).mode = .enabled ∧ (inMode .enabled).row ≠ 7 ∧
      { inMode .enabled with row := 7 }.row = 7 := by decide

/-- Row 7, where the notification is, and another row. -/
theorem test_witness_RowRenderEventCount :
    Running { inMode .enabled with row := 7 } ∧ { inMode .enabled with row := 7 }.mode = .enabled ∧
      { inMode .enabled with row := 7 }.row = 7 ∧ Running (inMode .enabled) ∧ (inMode .enabled).row ≠ 7 := by decide

theorem test_witness_BlackRowStaysDark :
    Running (inMode .enabled) ∧ (inMode .enabled).mode = .enabled ∧
      ∀ x, (inMode .enabled).readFb (cellIndex (inMode .enabled).row x) = 0 := by decide

theorem test_witness_EightTicksMakeOneFrame :
    Running (withTurns .enabled (ticks 8)) ∧ (withTurns .enabled (ticks 8)).mode = .enabled ∧
      (withTurns .enabled (ticks 8)).turns = ticks 8 ++ [] := by decide

/-- No frame, and one frame. -/
theorem test_witness_PulseDensityLaw :
    (Running (inMode .enabled) ∧ (inMode .enabled).turns = ticks (8 * 0) ++ []) ∧
      Running (withTurns .enabled (ticks 8)) ∧ (withTurns .enabled (ticks 8)).mode = .enabled ∧
      (withTurns .enabled (ticks 8)).turns = ticks (8 * 1) ++ [] := by decide

/-- The copy agent's own turn, no turn to come and a held host word, each at the first byte of a copy, the last but one,
and the last. -/
theorem test_witness_CopyStepWritesOneByte :
    (∀ n turns, Running (copying n turns) ∧ (copying n turns).copy = some (blackCopy n) ∧
        (copying n turns).turns = turns) ∧
      (blackCopy 0).next.val < 255 ∧ (blackCopy 254).next.val < 255 ∧ (blackCopy 255).next.val = 255 :=
  ⟨fun _ _ => ⟨⟨rfl, rfl⟩, rfl, rfl⟩, by decide, by decide, rfl⟩

theorem test_witness_WriteFrameCompletes :
    ∃ s : State, ∃ p : List Byte, HostReady s ∧ s.mode ≠ .uninit ∧ p.length = 256 ∧
      s.turns = .host 0x00000002 p :: (List.replicate 256 .copy ++ []) :=
  ⟨withTurns .enabled (.host 0x00000002 (black 256) :: (List.replicate 256 .copy ++ [])), _,
    ⟨⟨rfl, rfl⟩, rfl⟩, nofun, length_black _, rfl⟩

/-- Every byte of the black copy is 0. -/
theorem payloadAt_blackCopy (n : Fin 256) (i : Index) : payloadAt (blackCopy n).payload i = 0 := by
  simp [payloadAt, blackCopy]

theorem inv_copying (n : Fin 256) (turns : List Turn) : Inv (copying n turns) := by
  refine ⟨⟨Memory.wf_nil, Memory.wf_nil⟩, nofun, fun c hc => ?_⟩
  cases hc
  exact copyOrder_nodup 0

/-- At every count, the first and the last among them, over a black framebuffer. -/
theorem test_witness_TearingIsBounded (n : Fin 256) :
    Inv (copying n []) ∧ (copying n []).copy = some (blackCopy n) ∧ TornFrom (fun _ => 0) (copying n []) ∧
      ∃ t, step (copying n []) = .next t := by
  refine ⟨inv_copying n [], rfl, fun c hc i => ?_, _, rfl⟩
  cases hc
  rw [torn]
  split
  · exact (payloadAt_blackCopy n i).symm
  · rfl

/-- The clause on the end of a copy is met by a copy of 255 bytes. -/
theorem test_witness_TearingIsBounded_end : ∃ t, step (copying 255 []) = .next t ∧ t.copy = none := ⟨_, rfl, rfl⟩

theorem test_witness_RewritingTheSameFrameChangesNothing :
    Inv (copying 0 []) ∧ (copying 0 []).copy = some (blackCopy 0) ∧
      (∀ i, (copying 0 []).readFb i = payloadAt (blackCopy 0).payload i) ∧ ∃ t, step (copying 0 []) = .next t :=
  ⟨inv_copying 0 [], rfl, fun i => (payloadAt_blackCopy 0 i).symm, _, rfl⟩

theorem test_witness_EveryCopyOrderIsAdmitted : allIndices.reverse.Perm allIndices := List.reverse_perm _

/-- With a copy in flight, so that every part of the invariants says something. -/
theorem test_witness_InvariantsKept :
    Inv (copying 9 [.timer tickWord]) ∧ ∃ t, step (copying 9 [.timer tickWord]) = .next t :=
  ⟨inv_copying 9 _, step_running _ ⟨rfl, rfl⟩⟩

/-- A line already driven, and a drive to come. -/
theorem test_witness_LinesFollowTraceKept :
    LinesFollowTrace { withTurns .disabled [.host 0x00000006 []] with lat := true, trace := [.line .lat true] } ∧
      ∃ t, step { withTurns .disabled [.host 0x00000006 []] with lat := true, trace := [.line .lat true] } = .next t :=
  ⟨fun l v => by cases l <;> cases v <;> decide, _, rfl⟩

/-- A step that appends: TraceOnlyGrows, OnlyTheCopyWritesTheFramebuffer, FrozenWhileDisabled and the second clause of
ModeTransitions are met by it. -/
theorem test_witness_StepWhileDisabled :
    (∃ t, step (withTurns .disabled [.host 0x00000003 []]) = .next t) ∧
      (withTurns .disabled [.host 0x00000003 []]).mode = .disabled ∧
      (withTurns .disabled [.host 0x00000003 []]).mode ≠ .uninit ∧
      (withTurns .disabled [.host 0x00000003 []]).copy = none := ⟨⟨_, rfl⟩, rfl, nofun, rfl⟩

/-- Each of the three transitions, and a request that makes none. -/
theorem test_witness_ModeTransitions :
    (∃ t, exec .init State.reset = .next t) ∧ (∃ t, exec .enable (inMode .disabled) = .next t) ∧
      (∃ t, exec .disable (inMode .enabled) = .next t) ∧ ∃ t, exec (.setPeriod 9) (inMode .enabled) = .next t :=
  ⟨⟨_, rfl⟩, ⟨_, rfl⟩, ⟨_, rfl⟩, ⟨_, rfl⟩⟩

theorem test_witness_HostCannotReachRenderState :
    ∃ t, exec (.shift 0) (inMode .disabled) = .next t ∧ Instr.shift 0 ≠ .init ∧ Instr.shift 0 ≠ .tick :=
  ⟨_, rfl, by decide, by decide⟩

theorem test_witness_PeriodIsNeverRead :
    (∃ t, exec .init State.reset = .next t) ∧ ∃ t, exec .enable (inMode .disabled) = .next t := ⟨⟨_, rfl⟩, ⟨_, rfl⟩⟩

/-- Every request completes without a fault somewhere, TICK in and out of ENABLED and at row 7. -/
theorem test_witness_EventCounts :
    (∃ t, exec .init State.reset = .next t ∧ t.fault = none) ∧
      (∀ m ≠ Mode.uninit, ∃ t, exec (.writeFrame (black 256)) (inMode m) = .next t ∧ t.fault = none) ∧
      (∃ t, exec .enable (inMode .disabled) = .next t ∧ t.fault = none) ∧
      (∃ t, exec .disable (inMode .enabled) = .next t ∧ t.fault = none) ∧
      (∃ t, exec (.setPeriod 0) (inMode .enabled) = .next t ∧ t.fault = none) ∧
      (∃ t, exec (.latch true) (inMode .disabled) = .next t ∧ t.fault = none) ∧
      (∃ t, exec (.shift 0) (inMode .disabled) = .next t ∧ t.fault = none) ∧
      (∃ t, exec (.command 0 0) (inMode .disabled) = .next t ∧ t.fault = none) ∧
      (∃ t, exec .tick (inMode .disabled) = .next t ∧ t.fault = none) ∧
      ∀ r, ∃ t, exec .tick { inMode .enabled with row := r } = .next t ∧ t.fault = none := by
  refine ⟨⟨_, rfl, rfl⟩, fun m hm => ?_, ⟨_, rfl, rfl⟩, ⟨_, rfl, rfl⟩, ⟨_, rfl, rfl⟩, ⟨_, rfl, rfl⟩, ⟨_, rfl, rfl⟩,
    ⟨_, rfl, rfl⟩, ⟨_, rfl, rfl⟩, fun r => ?_⟩
  · refine ⟨_, exec_effect _ _ ⟨rfl, rfl⟩ (fun _ => rfl) ?_, ?_⟩
    · cases m <;> first | exact absurd rfl hm | simp [faultOf, inMode, length_black]
    · rw [writeFrameEffect_eq _ _ (length_black _)]; rfl
  · refine ⟨_, exec_effect _ _ ⟨rfl, rfl⟩ (fun h => absurd rfl h) rfl, ?_⟩
    rw [tickEffect_enabled _ rfl]
    obtain ⟨a, he, _⟩ := rowRender_spec { inMode .enabled with row := r }
    rw [he]; rfl

end Sys2Proof.Tests
end

/-! ### The whole-machine rules of 10_state.md

First what a step and a request can do and what they leave alone, each said once (`step_cases`, `effectOf_frame`,
`copyStep_frame`); then the rules proved from that. -/

namespace Sys2Proof.Machine

/-! ### The step, in three cases -/

/-- The step of `step_next` with a request's two outcomes taken apart: the copy agent moved (or nothing did), a mark was
recorded, or a request that raises no fault had its effect. -/
theorem step_cases (s t : State) (h : step s = .next t) :
    ∃ rest, t = copyStep (s.setTurns rest) ∨
      (∃ f r, t = { s with turns := rest, fault := f, refused := r }) ∨
      ∃ i, faultOf i s.mode = none ∧ t = effectOf i (s.setTurns rest) := by
  obtain ⟨_, ⟨rest, rfl⟩ | ⟨r, w, rest, rfl⟩ | ⟨i, rest, _, he⟩⟩ := step_next s t h
  · exact ⟨rest, .inl rfl⟩
  · exact ⟨rest, .inr (.inl ⟨s.fault, some ⟨r, w⟩, rfl⟩)⟩
  · obtain ⟨_, _, ⟨c, _, rfl⟩ | ⟨hf, rfl⟩⟩ := exec_next i _ t he
    · exact ⟨rest, .inr (.inl ⟨some ⟨c, encodeWord i⟩, s.refused, rfl⟩)⟩
    · exact ⟨rest, .inr (.inr ⟨i, hf, rfl⟩)⟩

/-- The copy agent writes `FB` and `COPY` only. -/
theorem copyStep_frame (s : State) : ∃ m c, copyStep s = { s with fb := m, copy := c } := by
  rcases hc : s.copy with _ | c
  · exact ⟨s.fb, none, by rw [copyStep_none s hc, ← hc]⟩
  · exact ⟨_, _, copyStep_some s c hc⟩

/-! ### What a request that raises no fault may touch -/

/-- The mode a request that raises no fault leaves (60_exceptions.md R220). -/
def modeAfter : Instr → Mode → Mode
  | .init, _ => .disabled
  | .enable, _ => .enabled
  | .disable, _ => .disabled
  | .writeFrame _, m | .setPeriod _, m | .latch _, m | .shift _, m | .command _ _, m | .tick, m => m

theorem modeAfter_eq_uninit (i : Instr) (m : Mode) (h : modeAfter i m = .uninit) : m = .uninit := by
  cases i with
  | init | enable | disable => cases h
  | _ => exact h

/-- The frame of a request that takes the machine from `s` to `t` without a fault: what it may write, and how. -/
structure EffectFrame (i : Instr) (s t : State) : Prop where
  mode : t.mode = modeAfter i s.mode
  trace : ∃ es, t.trace = s.trace ++ es
  marks : t.fault = s.fault ∧ t.refused = s.refused
  /-- only a WRITE_FRAME writes `COPY`, with an order drawn -/
  copy : t.copy = s.copy ∨ ∃ p q, i = .writeFrame p ∧ t.copy = some ⟨q, copyOrder s.draws, 0⟩
  /-- only INIT writes the framebuffer -/
  fb : i ≠ .init → t.fb = s.fb
  /-- only INIT and TICK write the accumulators, the row cursor and the frame counter -/
  render : i ≠ .init → i ≠ .tick → t.acc = s.acc ∧ t.row = s.row ∧ t.fc = s.fc
  arraysWf : ArraysWf s → ArraysWf t

/-- A request that writes nothing but the mode, the period, the lines and the trace. -/
theorem EffectFrame.of_lines {i : Instr} {s : State} {p : Period} {d k l : Level} {es : List Event} :
    EffectFrame i s { s with
      mode := modeAfter i s.mode, period := p, dat := d, clk := k, lat := l, trace := s.trace ++ es } where
  mode := rfl
  trace := ⟨es, rfl⟩
  marks := ⟨rfl, rfl⟩
  copy := .inl rfl
  fb _ := rfl
  render _ _ := ⟨rfl, rfl, rfl⟩
  arraysWf := id

/-- A request that changes nothing. -/
theorem EffectFrame.refl {i : Instr} {s : State} (h : modeAfter i s.mode = s.mode) : EffectFrame i s s := by
  have := EffectFrame.of_lines (i := i) (s := s) (p := s.period) (d := s.dat) (k := s.clk) (l := s.lat) (es := [])
  rwa [h, List.append_nil] at this

theorem initEffect_frame (s : State) : EffectFrame .init s (initEffect s) := by
  rw [initEffect_eq]
  exact {
    mode := rfl
    trace := ⟨_, rfl⟩
    marks := ⟨rfl, rfl⟩
    copy := .inl rfl
    fb := fun h => absurd rfl h
    render := fun h => absurd rfl h
    arraysWf := fun ⟨hfb, hacc⟩ => ⟨Memory.wf_fill _ _ hfb, Memory.wf_fill _ _ hacc⟩ }

theorem writeFrameEffect_frame (payload : List Byte) (s : State) :
    EffectFrame (.writeFrame payload) s (effectOf (.writeFrame payload) s) := by
  by_cases hp : payload.length = 256
  · rw [writeFrameEffect_eq payload s hp]
    exact {
      mode := rfl
      trace := ⟨[], (List.append_nil _).symm⟩
      marks := ⟨rfl, rfl⟩
      copy := .inr ⟨payload, _, rfl, rfl⟩
      fb := fun _ => rfl
      render := fun _ _ => ⟨rfl, rfl, rfl⟩
      arraysWf := id }
  · rw [writeFrameEffect_bad payload s hp]
    exact .refl rfl

theorem rowRender_frame (s : State) : EffectFrame .tick s (rowRender s) := by
  obtain ⟨a, he, _, hw⟩ := rowRender_spec s
  rw [he]
  exact {
    mode := rfl
    trace := ⟨_, List.append_assoc ..⟩
    marks := ⟨rfl, rfl⟩
    copy := .inl rfl
    fb := fun _ => rfl
    render := fun _ h => absurd rfl h
    arraysWf := fun ⟨hfb, hacc⟩ => ⟨hfb, hw hacc⟩ }

/-- The frame of every request. -/
theorem effectOf_frame (i : Instr) (s : State) : EffectFrame i s (effectOf i s) := by
  cases i with
  | init => exact initEffect_frame s
  | writeFrame payload => exact writeFrameEffect_frame payload s
  | enable | disable | setPeriod _ | latch _ => exact .of_lines
  | shift byte => rw [shiftEffect_eq]; exact .of_lines
  | command cmd data => rw [commandEffect_eq]; exact .of_lines
  | tick =>
    by_cases hm : s.mode = .enabled
    · rw [tickEffect_enabled s hm]; exact rowRender_frame s
    · rw [tickEffect_ignored s hm]; exact .refl rfl

/-! ### Which requests raise no fault -/

/-- While UNINIT a request that raises no fault is INIT or TICK (60_exceptions.md R207). -/
theorem faultOf_uninit (i : Instr) (hi : i ≠ .init) (ht : i ≠ .tick) :
    faultOf i .uninit = some .notInitialized := by
  cases i with
  | init => exact absurd rfl hi
  | tick => exact absurd rfl ht
  | _ => rfl

/-- After INIT, a request that raises no fault is not INIT (60_exceptions.md R208). -/
theorem ne_init_of_faultOf (i : Instr) (m : Mode) (hm : m ≠ .uninit) (hf : faultOf i m = none) : i ≠ .init := by
  rintro rfl
  cases m with
  | uninit => exact hm rfl
  | disabled | enabled => cases hf

theorem faultOf_tick (m : Mode) : faultOf .tick m = none := by
  cases m <;> rfl

/-! ### The invariants (10_state.md R33, R40) -/

/-- A copy that goes on keeps its order. -/
theorem copyAfterWrite_order (c d : Copy) (h : copyAfterWrite c = some d) : d.order = c.order := by
  unfold copyAfterWrite at h
  split at h <;> cases h
  rfl

theorem inv_copyStep (s : State) (h : Inv s) : Inv (copyStep s) := by
  rcases hc : s.copy with _ | c
  · rwa [copyStep_none s hc]
  · obtain ⟨⟨hfb, hacc⟩, hmode, horder⟩ := h
    rw [copyStep_some s c hc]
    refine ⟨⟨Memory.wf_write _ _ _ hfb, hacc⟩, fun hm => ?_, fun d hd => ?_⟩
    · rw [hmode hm] at hc; cases hc
    · rw [OrderComplete, copyAfterWrite_order c d hd]
      exact horder c hc

/-- A request that raises no fault keeps the invariants: a WRITE_FRAME does not run while UNINIT, and the order it puts
in flight is a permutation. -/
theorem inv_effectOf (i : Instr) (s : State) (h : Inv s) (hf : faultOf i s.mode = none) : Inv (effectOf i s) := by
  obtain ⟨harrays, hmode, horder⟩ := h
  have fr := effectOf_frame i s
  refine ⟨fr.arraysWf harrays, fun hm => ?_, fun c hc => ?_⟩
  · have hs : s.mode = .uninit := modeAfter_eq_uninit i _ (fr.mode ▸ hm)
    obtain hcopy | ⟨p, q, rfl, _⟩ := fr.copy
    · rw [hcopy, hmode hs]
    · rw [hs] at hf; cases hf
  · obtain hcopy | ⟨p, q, _, hcopy⟩ := fr.copy
    · exact horder c (hcopy ▸ hc)
    · rw [hcopy] at hc
      cases hc
      exact copyOrder_nodup s.draws

/-- Settles O43, by the three cases of a step. -/
theorem invariantsKept : Obligations.InvariantsKept := by
  unfold Obligations.InvariantsKept
  intro s t h hst
  obtain ⟨rest, rfl | ⟨f, r, rfl⟩ | ⟨i, hf, rfl⟩⟩ := step_cases s t hst
  · exact inv_copyStep (s.setTurns rest) h
  · exact h
  · exact inv_effectOf i (s.setTurns rest) h hf

/-! ### When a step answers -/

/-- Settles O12: a step answers exactly while the machine runs, and the requests' outcomes are those of `exec_next` and
`exec_not_refused`. -/
theorem stepsExactlyWhileUnmarked : Obligations.StepsExactlyWhileUnmarked := by
  unfold Obligations.StepsExactlyWhileUnmarked
  refine ⟨fun s => ⟨fun ⟨t, ht⟩ => (step_next s t ht).1, step_running s⟩, fun i s t h => (exec_next i s t h).1,
    exec_not_refused⟩

/-! ### Before INIT, and INIT (10_state.md R38, R39) -/

/-- Before INIT a request but INIT records NOT_INITIALIZED, or is an ignored TICK: neither the mark nor anything else
depends on another field. -/
theorem exec_uninit (i : Instr) (s : State) (h : HostReady s) (hm : s.mode = .uninit) (hi : i ≠ .init) :
    exec i s = .next { s with fault := if i = .tick then none else some ⟨.notInitialized, encodeWord i⟩ } := by
  by_cases ht : i = .tick
  · subst ht
    rw [exec_effect .tick s h.1 (fun _ => h.2) (by rw [hm]; rfl), tickEffect_ignored s (by simp [hm]), if_pos rfl,
      ← h.1.1]
  · rw [exec_fault i s h .notInitialized (by rw [hm, faultOf_uninit i hi ht]), if_neg ht]
    rfl

theorem exec_init_uninit (s : State) (h : HostReady s) (hm : s.mode = .uninit) :
    exec .init s = .next (initEffect s) :=
  exec_effect .init s h.1 (fun _ => h.2) (by rw [hm]; rfl)

/-- INIT overwrites every field that 10_state.md R38 leaves unspecified: what it leaves depends on the others only, but
for how the arrays are listed. -/
theorem initEffect_unspecified (s u : State)
    (hu : u = { s with
      row := u.row, fc := u.fc, period := u.period, dat := u.dat, clk := u.clk, lat := u.lat
      fb := u.fb, acc := u.acc }) :
    initEffect u = { initEffect s with fb := (initEffect u).fb, acc := (initEffect u).acc } ∧
      ∀ k, (initEffect u).readFb k = (initEffect s).readFb k ∧ (initEffect u).readAcc k = (initEffect s).readAcc k := by
  have hd : u.draws = s.draws := by rw [hu]
  rw [initEffect_eq, initEffect_eq]
  constructor
  · rw [hu]
  · simp [State.readFb, State.readAcc, hd]

/-- Settles O17: requests before INIT do not look at the fields, and INIT overwrites them. -/
theorem unspecifiedValuesNeverMatter : Obligations.UnspecifiedValuesNeverMatter := by
  unfold Obligations.UnspecifiedValuesNeverMatter
  intro i s u hs hm hu
  have hsu : HostReady u ∧ u.mode = .uninit := by rw [hu]; exact ⟨hs, hm⟩
  obtain ⟨hur, hum⟩ := hsu
  constructor
  · rintro rfl
    exact ⟨_, _, exec_init_uninit s hs hm, exec_init_uninit u hur hum, initEffect_unspecified s u hu⟩
  · exact fun hi => ⟨_, exec_uninit i s hs hm hi, exec_uninit i u hur hum hi⟩

/-- Settles O18, by the fields of `initEffect_eq` and REINIT. -/
theorem initResult : Obligations.InitResult := by
  unfold Obligations.InitResult
  intro s h
  constructor
  · intro hm
    obtain ⟨⟨hfault, hrefused⟩, hcopy⟩ := h
    refine ⟨_, exec_init_uninit s ⟨⟨hfault, hrefused⟩, hcopy⟩ hm, ?_⟩
    rw [initEffect_eq]
    exact ⟨rfl, rfl, rfl, rfl, rfl, rfl, rfl, Memory.read_fill _ _, Memory.read_fill _ _, hcopy, hfault, hrefused, rfl,
      rfl⟩
  · intro hm
    refine exec_fault .init s h .reinit ?_
    rcases hs : s.mode with _ | _ | _
    · exact absurd hs hm
    · rfl
    · rfl

/-! ### What steps and requests leave unchanged -/

/-- Settles O46: only requests write the trace, and each appends. -/
theorem traceOnlyGrows : Obligations.TraceOnlyGrows := by
  unfold Obligations.TraceOnlyGrows
  intro s t hst
  obtain ⟨rest, rfl | ⟨f, r, rfl⟩ | ⟨i, _, rfl⟩⟩ := step_cases s t hst
  · obtain ⟨m, c, he⟩ := copyStep_frame (s.setTurns rest)
    exact ⟨[], by rw [he, List.append_nil]; rfl⟩
  · exact ⟨[], (List.append_nil _).symm⟩
  · exact (effectOf_frame i (s.setTurns rest)).trace

/-- Settles O48: a fault changes the mark only, and no other request than INIT and TICK has these fields in its
frame. -/
theorem hostCannotReachRenderState : Obligations.HostCannotReachRenderState := by
  unfold Obligations.HostCannotReachRenderState
  intro i s t h hi ht
  obtain ⟨_, _, ⟨c, _, rfl⟩ | ⟨_, rfl⟩⟩ := exec_next i s t h
  · exact ⟨rfl, rfl, rfl, rfl⟩
  · have fr := effectOf_frame i s
    obtain ⟨hacc, hrow, hfc⟩ := fr.render hi ht
    exact ⟨hacc, hrow, hfc, fr.fb hi⟩

/-- Settles O49: with no copy in flight the copy agent changes nothing, and INIT raises REINIT. -/
theorem onlyTheCopyWritesTheFramebuffer : Obligations.OnlyTheCopyWritesTheFramebuffer := by
  unfold Obligations.OnlyTheCopyWritesTheFramebuffer
  intro s t hst hm hc
  obtain ⟨rest, rfl | ⟨f, r, rfl⟩ | ⟨i, hf, rfl⟩⟩ := step_cases s t hst
  · rw [copyStep_none (s.setTurns rest) hc]; rfl
  · rfl
  · exact (effectOf_frame i (s.setTurns rest)).fb (ne_init_of_faultOf i s.mode hm hf)

/-- Settles O50: while DISABLED a TICK is ignored and INIT raises REINIT, and no other agent writes these fields. -/
theorem frozenWhileDisabled : Obligations.FrozenWhileDisabled := by
  unfold Obligations.FrozenWhileDisabled
  intro s t hst hm
  obtain ⟨rest, rfl | ⟨f, r, rfl⟩ | ⟨i, hf, rfl⟩⟩ := step_cases s t hst
  · obtain ⟨m, c, he⟩ := copyStep_frame (s.setTurns rest)
    rw [he]; exact ⟨rfl, rfl, rfl⟩
  · exact ⟨rfl, rfl, rfl⟩
  · by_cases ht : i = .tick
    · subst ht
      have : (s.setTurns rest).mode ≠ .enabled := by simp [hm]
      rw [tickEffect_ignored _ this]; exact ⟨rfl, rfl, rfl⟩
    · have hi := ne_init_of_faultOf i s.mode (by simp [hm]) hf
      obtain ⟨hacc, hrow, hfc⟩ := (effectOf_frame i (s.setTurns rest)).render hi ht
      exact ⟨hrow, hfc, hacc⟩

/-! ### `PERIOD` is written and not read (10_state.md R28) -/

/-- A request's effect is the same from another period, which it keeps or overwrites. -/
theorem effectOf_withPeriod (i : Instr) (s : State) (p : Period) :
    ∃ q, effectOf i (s.setPeriod p) = (effectOf i s).setPeriod q ∧ (q = p ∨ q = (effectOf i s).period) := by
  cases i with
  | init =>
    refine ⟨_, ?_, .inr rfl⟩
    show initEffect (s.setPeriod p) = initEffect s
    rw [initEffect_eq, initEffect_eq]; rfl
  | setPeriod d => exact ⟨_, rfl, .inr rfl⟩
  | writeFrame payload =>
    refine ⟨p, ?_, .inl rfl⟩
    by_cases hp : payload.length = 256
    · rw [writeFrameEffect_eq payload _ hp, writeFrameEffect_eq payload _ hp]; rfl
    · rw [writeFrameEffect_bad payload _ hp, writeFrameEffect_bad payload _ hp]
  | enable | disable | latch _ => exact ⟨p, rfl, .inl rfl⟩
  | shift byte => exact ⟨p, by rw [shiftEffect_eq, shiftEffect_eq]; rfl, .inl rfl⟩
  | command cmd data => exact ⟨p, by rw [commandEffect_eq, commandEffect_eq]; rfl, .inl rfl⟩
  | tick =>
    refine ⟨p, ?_, .inl rfl⟩
    by_cases hm : s.mode = .enabled
    · rw [tickEffect_enabled _ hm, tickEffect_enabled (s.setPeriod p) hm, rowRender_setPeriod]
    · rw [tickEffect_ignored _ hm, tickEffect_ignored (s.setPeriod p) hm]

/-- Settles O51: the checks do not look at the period, and `effectOf_withPeriod` says the rest. -/
theorem periodIsNeverRead : Obligations.PeriodIsNeverRead := by
  unfold Obligations.PeriodIsNeverRead
  intro i s t p h
  obtain ⟨hr, hc, ⟨c, hf, rfl⟩ | ⟨hf, rfl⟩⟩ := exec_next i s t h
  · have hi : i ≠ .tick := by
      rintro rfl
      rw [faultOf_tick] at hf; cases hf
    exact ⟨p, exec_fault i (s.setPeriod p) ⟨hr, hc hi⟩ c hf, .inl rfl⟩
  · obtain ⟨q, he, hq⟩ := effectOf_withPeriod i s p
    exact ⟨q, (exec_effect i (s.setPeriod p) hr hc hf).trans (congrArg _ he), hq⟩

/-! ### Power-on -/

/-- Settles O16. -/
theorem powerOnState : Obligations.PowerOnState := ⟨rfl, rfl, rfl, rfl, rfl⟩

/-- Settles O42: empty arrays are in canonical form, and no copy is in flight. -/
theorem invariantsAtReset : Obligations.InvariantsAtReset := ⟨⟨Memory.wf_nil, Memory.wf_nil⟩, fun _ => rfl, nofun⟩

end Sys2Proof.Machine

/-! ### The linear index and the framebuffer copy (20_memory.md R51, R57, R58)

A step during a copy is the copy agent's or leaves `FB` and `COPY` alone (`step_copying`); what the copy agent's step
leaves in the framebuffer is said by the part of the order copied so far (`readFb_copyStep_of_tornFrom`). -/

namespace Sys2Proof.Machine

/-! ### Row and column of an index -/

theorem indexRow_toNat (i : Index) : (indexRow i).toNat = i.toNat / 32 := by
  have := i.isLt
  rw [indexRow, BitVec.extractLsb'_toNat, Nat.shiftRight_eq_div_pow]
  omega

theorem indexCol_toNat (i : Index) : (indexCol i).toNat = i.toNat % 32 := by
  rw [indexCol, BitVec.extractLsb'_toNat, Nat.shiftRight_zero]

/-- Settles O36: the column is below 32, so dividing the index by 32 gives the row and leaves the column. -/
theorem indexIsRowMajor : Obligations.IndexIsRowMajor := by
  unfold Obligations.IndexIsRowMajor
  refine ⟨fun r c => ?_, fun i => ⟨indexRow_toNat i, indexCol_toNat i⟩⟩
  have hi := cellIndex_toNat r c
  have hc := c.isLt
  refine ⟨by omega, BitVec.eq_of_toNat_eq ?_, BitVec.eq_of_toNat_eq ?_⟩
  · rw [indexRow_toNat]; omega
  · rw [indexCol_toNat]; omega

/-! ### The copy order -/

/-- One more byte copied adds `ORDER[NEXT]` to the indices copied. -/
theorem mem_take_order_succ (c : Copy) (i : Index) :
    i ∈ c.order.toList.take (c.next.val + 1) ↔ i = c.order[c.next.val] ∨ i ∈ c.order.toList.take c.next.val := by
  have hlt : c.next.val < c.order.toList.length := by simp
  rw [← List.take_concat_get' _ _ hlt, List.mem_append, List.mem_singleton, or_comm, Vector.getElem_toList]

/-- A copy order lists every index (10_state.md R33): 256 different indices are all there are. -/
theorem mem_order (c : Copy) (h : OrderComplete c) (i : Index) : i ∈ c.order.toList := by
  have hsub : c.order.toList.Subperm allIndices := h.subperm fun j _ => mem_allIndices j
  have hperm : c.order.toList.Perm allIndices := hsub.perm_of_length_le (by simp [allIndices])
  exact hperm.mem_iff.2 (mem_allIndices i)

/-! ### The copy agent's step -/

/-- A copy that goes on is the same copy with one more byte written. -/
theorem copyAfterWrite_some (c d : Copy) (h : copyAfterWrite c = some d) :
    d.payload = c.payload ∧ d.order = c.order ∧ d.next.val = c.next.val + 1 := by
  unfold copyAfterWrite at h
  split at h <;> cases h
  exact ⟨rfl, rfl, rfl⟩

/-- A copy ends with its 256th byte. -/
theorem copyAfterWrite_none (c : Copy) (h : copyAfterWrite c = none) : c.next.val + 1 = 256 := by
  unfold copyAfterWrite at h
  split at h
  · cases h
  · have := c.next.isLt
    omega

/-- The cell `ORDER[NEXT]` takes its payload byte, and every other cell reads as before. -/
theorem readFb_copyStep (s : State) (c : Copy) (hc : s.copy = some c) (i : Index) :
    (copyStep s).readFb i = if i = c.order[c.next.val] then payloadAt c.payload i else s.readFb i := by
  rw [copyStep_some s c hc, State.readFb, Memory.read_write, State.readFb]
  split
  next h => rw [h]
  · rfl

/-- The copy agent's step extends the part of the framebuffer that reads as the payload by `ORDER[NEXT]`. -/
theorem readFb_copyStep_of_tornFrom (before : Index → Byte) (s : State) (c : Copy) (hc : s.copy = some c)
    (h : TornFrom before s) (i : Index) :
    (copyStep s).readFb i =
      if i ∈ c.order.toList.take (c.next.val + 1) then payloadAt c.payload i else before i := by
  rw [readFb_copyStep s c hc, h c hc i, torn]
  simp only [mem_take_order_succ, ite_or]

/-- The copy agent's step keeps the framebuffer torn as the order says. -/
theorem tornFrom_copyStep (before : Index → Byte) (s : State) (c : Copy) (hc : s.copy = some c)
    (h : TornFrom before s) : TornFrom before (copyStep s) := by
  intro d hd i
  rw [copyStep_some s c hc] at hd
  obtain ⟨hpayload, horder, hnext⟩ := copyAfterWrite_some c d hd
  rw [readFb_copyStep_of_tornFrom before s c hc h, torn, hpayload, horder, hnext]

/-- When the copy agent's step ends the copy, its order has been used up, and every cell reads as the payload. -/
theorem readFb_copyStep_of_ends (before : Index → Byte) (s : State) (c : Copy) (hc : s.copy = some c)
    (h : TornFrom before s) (horder : OrderComplete c) (hend : (copyStep s).copy = none) (i : Index) :
    (copyStep s).readFb i = payloadAt c.payload i := by
  rw [copyStep_some s c hc] at hend
  have hall : c.order.toList.take (c.next.val + 1) = c.order.toList := by
    rw [copyAfterWrite_none c hend]
    exact List.take_of_length_le (by simp)
  rw [readFb_copyStep_of_tornFrom before s c hc h, hall, if_pos (mem_order c horder i)]

/-! ### Any agent's step during a copy -/

/-- While a copy is in flight only the copy agent writes `FB` or `COPY`: the one request that can run is TICK
(60_exceptions.md R206). -/
theorem step_copying (s t : State) (c : Copy) (hc : s.copy = some c) (hst : step s = .next t) :
    (∃ rest, t = copyStep (s.setTurns rest)) ∨ (t.fb = s.fb ∧ t.copy = s.copy) := by
  obtain ⟨_, hcopy | ⟨r, w, rest, rfl⟩ | ⟨i, rest, hheld, he⟩⟩ := step_next s t hst
  · exact .inl hcopy
  · exact .inr ⟨rfl, rfl⟩
  · obtain rfl : i = .tick := by
      by_contra hi
      rw [hheld hi] at hc; cases hc
    obtain ⟨_, _, ⟨f, hf, _⟩ | ⟨_, rfl⟩⟩ := exec_next .tick _ t he
    · rw [faultOf_tick] at hf; cases hf
    · have fr := effectOf_frame .tick (s.setTurns rest)
      obtain hkept | ⟨_, _, hi, _⟩ := fr.copy
      · exact .inr ⟨fr.fb nofun, hkept⟩
      · cases hi

/-- Settles O39: the copy agent's step extends the copied part by one index of the order, and every other step leaves
the framebuffer and the copy alone. -/
theorem tearingIsBounded : Obligations.TearingIsBounded := by
  unfold Obligations.TearingIsBounded
  intro s t c before hinv hc htorn hst
  obtain ⟨_, _, horder⟩ := hinv
  obtain ⟨rest, rfl⟩ | ⟨hfb, hcopy⟩ := step_copying s t c hc hst
  · have hcr : (s.setTurns rest).copy = some c := hc
    refine ⟨tornFrom_copyStep before _ c hcr htorn,
      readFb_copyStep_of_ends before _ c hcr htorn (horder c hc), fun d hd => ?_⟩
    rw [copyStep_some _ c hcr] at hd
    obtain ⟨hpayload, hsame, _⟩ := copyAfterWrite_some c d hd
    exact ⟨hpayload, hsame⟩
  · rw [hc] at hcopy
    refine ⟨fun d hd i => ?_, fun hn => ?_, fun d hd => ?_⟩
    · rw [State.readFb, hfb]
      exact htorn d (hc.trans (hcopy.symm.trans hd)) i
    · rw [hcopy] at hn; cases hn
    · rw [hcopy] at hd; cases hd; exact ⟨rfl, rfl⟩

end Sys2Proof.Machine

/-! ### The words a port accepts and refuses (30_encoding.md R70 to R77)

A word bears a reserved code or the code of one operation, and each answer of `decodePort` is an `iff` about that
code, its port and its must-be-zero bits (`decodePort_eq_reservedOpcode`, `_wrongPort`, `_nonzeroMbz`, `_ok`). The
statements of the family follow by reading the opcode map off in numbers (`Opcode.exists_iff`). -/

namespace Sys2Proof

/-! ### Codes -/

/-- The word bears a reserved operation code (30_encoding.md R76). -/
abbrev ReservedCode (w : Word) : Prop :=
  w.toNat % 256 = 0x00 ∨ (0x09 ≤ w.toNat % 256 ∧ w.toNat % 256 ≤ 0x0F) ∨ 0x11 ≤ w.toNat % 256

/-- A claim about some operation, row by row of the opcode map (30_encoding.md R73). -/
theorem Opcode.exists_iff (P : Opcode → Prop) :
    (∃ o, P o) ↔ P .init ∨ P .writeFrame ∨ P .enable ∨ P .disable ∨ P .setPeriod ∨ P .latch ∨ P .shift ∨ P .command ∨
      P .tick := by
  constructor
  · rintro ⟨o, ho⟩
    cases o <;> simp only [ho, true_or, or_true]
  · rintro (h | h | h | h | h | h | h | h | h) <;> exact ⟨_, h⟩

theorem not_reservedCode_of_code {w : Word} {o : Opcode} (hc : w.toNat % 256 = o.number.toNat) : ¬ ReservedCode w := by
  rw [ReservedCode, hc]
  exact number_not_reserved o

/-- A word bears the code of one operation only: to be about the operation of the code is to be about that one. -/
theorem exists_code_iff {w : Word} {o : Opcode} (hc : w.toNat % 256 = o.number.toNat) (P : Opcode → Prop) :
    (∃ o' : Opcode, w.toNat % 256 = o'.number.toNat ∧ P o') ↔ P o := by
  refine ⟨fun ⟨o', hc', h⟩ => ?_, fun h => ⟨o, hc, h⟩⟩
  rwa [number_inj o o' (BitVec.eq_of_toNat_eq (hc.symm.trans hc'))]

/-! ### What a port answers -/

/-- What a port answers: a reserved code is refused, and a word of a defined code meets the two checks left
(60_exceptions.md R206). -/
theorem decodePort_spec (p : Port) (w : Word) (payload : List Byte) :
    (ReservedCode w ∧ decodePort p w payload = .error .reservedOpcode) ∨
    ∃ o : Opcode, w.toNat % 256 = o.number.toNat ∧
      decodePort p w payload =
        if o.port = p then
          if w.toNat / 2 ^ o.operandEnd = 0 then .ok (withOperands o w payload) else .error .nonzeroMbz
        else .error .wrongPort := by
  rcases checkWord_spec p w with ⟨he, hr⟩ | ⟨o, hc, he⟩
  · exact .inl ⟨hr, by rw [decodePort, he]⟩
  · refine .inr ⟨o, hc, ?_⟩
    rw [decodePort, he, ite_not, ite_not]
    split_ifs <;> rfl

section
variable (p : Port) (w : Word) (payload : List Byte)

theorem decodePort_eq_reservedOpcode : decodePort p w payload = .error .reservedOpcode ↔ ReservedCode w := by
  rcases decodePort_spec p w payload with ⟨hr, he⟩ | ⟨o, hc, he⟩
  · exact iff_of_true he hr
  · refine iff_of_false ?_ (not_reservedCode_of_code hc)
    rw [he]
    split_ifs <;> nofun

theorem decodePort_eq_wrongPort :
    decodePort p w payload = .error .wrongPort ↔ ∃ o : Opcode, w.toNat % 256 = o.number.toNat ∧ o.port ≠ p := by
  rcases decodePort_spec p w payload with ⟨hr, he⟩ | ⟨o, hc, he⟩
  · rw [he]
    exact iff_of_false nofun fun ⟨_, hc, _⟩ => not_reservedCode_of_code hc hr
  · rw [he, exists_code_iff hc]
    split_ifs with hp <;> simp [hp]

theorem decodePort_eq_nonzeroMbz :
    decodePort p w payload = .error .nonzeroMbz ↔
      ∃ o : Opcode, w.toNat % 256 = o.number.toNat ∧ o.port = p ∧ w.toNat / 2 ^ o.operandEnd ≠ 0 := by
  rcases decodePort_spec p w payload with ⟨hr, he⟩ | ⟨o, hc, he⟩
  · rw [he]
    exact iff_of_false nofun fun ⟨_, hc, _⟩ => not_reservedCode_of_code hc hr
  · rw [he, exists_code_iff hc]
    split_ifs with hp hm
    · simp [hp, hm]
    · simp [hp, hm]
    · simp [hp]

theorem decodePort_eq_ok (i : Instr) :
    decodePort p w payload = .ok i ↔
      ∃ o : Opcode, w.toNat % 256 = o.number.toNat ∧ o.port = p ∧ w.toNat / 2 ^ o.operandEnd = 0 ∧
        i = withOperands o w payload := by
  rcases decodePort_spec p w payload with ⟨hr, he⟩ | ⟨o, hc, he⟩
  · rw [he]
    exact iff_of_false nofun fun ⟨_, hc, _⟩ => not_reservedCode_of_code hc hr
  · rw [he, exists_code_iff hc]
    split_ifs with hp hm
    · simp [hp, hm, eq_comm (a := i)]
    · simp [hm]
    · simp [hp]

end

/-! ### Operands -/

theorem levelField_toNat (w : Word) : (levelField w).toNat = w.toNat / 256 % 2 := by
  rw [levelField, BitVec.getLsbD, Nat.toNat_testBit]

@[simp] theorem opcode_withOperands (o : Opcode) (w : Word) (payload : List Byte) :
    (withOperands o w payload).opcode = o := by
  cases o <;> rfl

/-- A request decoded has the operation of its word's code and the operands of its word's fields. -/
theorem eq_withOperands_of_decodePort {p : Port} {w : Word} {payload : List Byte} {i : Instr}
    (h : decodePort p w payload = .ok i) : i = withOperands i.opcode w payload := by
  obtain ⟨o, _, _, _, rfl⟩ := decodePort_ok p w payload i h
  rw [opcode_withOperands]

/-- The fields of a request's word are its operands. -/
theorem withOperands_encode (i : Instr) : withOperands i.opcode (encodeWord i) (encodePayload i) = i := by
  cases i with
  | setPeriod d =>
    refine congrArg Instr.setPeriod (BitVec.eq_of_toNat_eq ?_)
    rw [dividerField_toNat, encodeWord_setPeriod]
    omega
  | latch l => cases l <;> rfl
  | shift b =>
    refine congrArg Instr.shift (BitVec.eq_of_toNat_eq ?_)
    rw [f1Field_toNat, encodeWord_shift]
    omega
  | command c d =>
    refine congrArg₂ Instr.command (BitVec.eq_of_toNat_eq ?_) (BitVec.eq_of_toNat_eq ?_)
    · rw [f1Field_toNat, encodeWord_command]
      omega
    · rw [f2Field_toNat, encodeWord_command]
      omega
  | init | writeFrame _ | enable | disable | tick => rfl

/-- A word is made of its code and its operands when its must-be-zero bits are 0. -/
theorem encodeWord_withOperands {w : Word} {o : Opcode} (hc : w.toNat % 256 = o.number.toNat)
    (hm : w.toNat / 2 ^ o.operandEnd = 0) (payload : List Byte) : encodeWord (withOperands o w payload) = w := by
  refine BitVec.eq_of_toNat_eq ?_
  cases o with
  | setPeriod =>
    have hc : w.toNat % 256 = 5 := hc
    rw [withOperands, encodeWord_setPeriod, dividerField_toNat]
    omega
  | latch =>
    have hc : w.toNat % 256 = 6 := hc
    have hm : w.toNat / 2 ^ 9 = 0 := hm
    rw [withOperands, encodeWord_latch, levelField_toNat]
    omega
  | shift =>
    have hc : w.toNat % 256 = 7 := hc
    have hm : w.toNat / 2 ^ 16 = 0 := hm
    rw [withOperands, encodeWord_shift, f1Field_toNat]
    omega
  | command =>
    have hc : w.toNat % 256 = 8 := hc
    have hm : w.toNat / 2 ^ 24 = 0 := hm
    rw [withOperands, encodeWord_command, f1Field_toNat, f2Field_toNat]
    omega
  | init | writeFrame | enable | disable | tick =>
    rw [← Nat.div_add_mod w.toNat 256, hc, show w.toNat / 256 = 0 from hm]
    rfl

/-! ### The round trip -/

theorem opcField_encodeWord (i : Instr) : opcField (encodeWord i) = i.opcode.number :=
  BitVec.eq_of_toNat_eq ((opcField_toNat _).trans (encodeWord_code i).1)

@[simp] theorem portOf_encodeWord (i : Instr) : portOf (encodeWord i) = i.opcode.port := by
  rw [portOf, opcField_encodeWord, opcodeOf_number]

/-- Settles O1: the word belongs to the request's own port, bears its code with no must-be-zero bit set, and its fields
are the operands. -/
theorem decodeEncodeRoundTrip : Obligations.DecodeEncodeRoundTrip := by
  unfold Obligations.DecodeEncodeRoundTrip
  intro i
  obtain ⟨hc, hm⟩ := encodeWord_code i
  rw [decode, portOf_encodeWord, decodePort_eq_ok]
  exact ⟨i.opcode, hc, rfl, hm, (withOperands_encode i).symm⟩

/-- Settles O2: the accepted word is put together again from its code and its fields. -/
theorem acceptedWordIsItsRequestsWord : Obligations.AcceptedWordIsItsRequestsWord := by
  unfold Obligations.AcceptedWordIsItsRequestsWord
  intro p w payload i h
  obtain ⟨o, hc, hp, hm, rfl⟩ := decodePort_ok p w payload i h
  exact ⟨encodeWord_withOperands hc hm payload, by rw [opcode_withOperands, hp]⟩

/-! ### Refusals by the numbers of the map -/

/-- Settles O3. -/
theorem reservedOpcodesRefused : Obligations.ReservedOpcodesRefused := decodePort_eq_reservedOpcode

/-- TICK is the timer port's one operation, so every host code is at the wrong port there (30_encoding.md R71). -/
theorem decodePort_timer_eq_wrongPort (w : Word) (payload : List Byte) :
    decodePort .timer w payload = .error .wrongPort ↔ 0x01 ≤ w.toNat % 256 ∧ w.toNat % 256 ≤ 0x08 := by
  rw [decodePort_eq_wrongPort, Opcode.exists_iff]
  simp only [Opcode.number, Opcode.port, BitVec.reduceToNat, ne_eq, reduceCtorEq, not_true_eq_false,
    not_false_eq_true, and_true, and_false, or_false]
  omega

theorem decodePort_timer_eq_nonzeroMbz (w : Word) (payload : List Byte) :
    decodePort .timer w payload = .error .nonzeroMbz ↔ w.toNat % 256 = 0x10 ∧ w.toNat / 2 ^ 8 ≠ 0 := by
  rw [decodePort_eq_nonzeroMbz, Opcode.exists_iff]
  simp [Opcode.number, Opcode.port, Opcode.operandEnd]

theorem decodePort_host_eq_wrongPort (w : Word) (payload : List Byte) :
    decodePort .host w payload = .error .wrongPort ↔ w.toNat % 256 = 0x10 := by
  rw [decodePort_eq_wrongPort, Opcode.exists_iff]
  simp [Opcode.number, Opcode.port]

theorem decodePort_host_eq_nonzeroMbz (w : Word) (payload : List Byte) :
    decodePort .host w payload = .error .nonzeroMbz ↔
      (0x01 ≤ w.toNat % 256 ∧ w.toNat % 256 ≤ 0x04 ∧ w.toNat / 2 ^ 8 ≠ 0) ∨
      (w.toNat % 256 = 0x06 ∧ w.toNat / 2 ^ 9 ≠ 0) ∨
      (w.toNat % 256 = 0x07 ∧ w.toNat / 2 ^ 16 ≠ 0) ∨
      (w.toNat % 256 = 0x08 ∧ w.toNat / 2 ^ 24 ≠ 0) := by
  rw [decodePort_eq_nonzeroMbz, Opcode.exists_iff]
  simp only [Opcode.number, Opcode.port, Opcode.operandEnd, BitVec.reduceToNat, reduceCtorEq, true_and, false_and,
    and_false, or_false]
  omega

/-- Settles O4: the word of TICK bears its code with no must-be-zero bit set; the timer port's refusals, and the host
port's of TICK's code, are those of the map. -/
theorem timerPortTakesOnlyTick : Obligations.TimerPortTakesOnlyTick := by
  unfold Obligations.TimerPortTakesOnlyTick
  intro w payload
  refine ⟨?_, (decodePort_timer_eq_wrongPort w payload).2, (decodePort_timer_eq_nonzeroMbz w payload).2,
    (decodePort_eq_reservedOpcode .timer w payload).2, (decodePort_host_eq_wrongPort w payload).2⟩
  rintro rfl
  exact (decodePort_eq_ok .timer _ payload .tick).2 ⟨.tick, rfl, rfl, rfl, rfl⟩

/-- Settles O5. -/
theorem mustBeZeroBitsRefused : Obligations.MustBeZeroBitsRefused :=
  ⟨decodePort_host_eq_nonzeroMbz, decodePort_timer_eq_nonzeroMbz⟩

/-- Settles O6: a decoded request has its word's fields as operands, and each field is a number. -/
theorem operandsAreUnsignedFields : Obligations.OperandsAreUnsignedFields := by
  unfold Obligations.OperandsAreUnsignedFields
  intro w payload
  refine ⟨fun d h => ?_, fun l h => ?_, fun b h => ?_, fun c d h => ?_, fun q h => ?_⟩
  · obtain rfl := Instr.setPeriod.inj (eq_withOperands_of_decodePort h)
    exact dividerField_toNat w
  · exact Instr.latch.inj (eq_withOperands_of_decodePort h)
  · obtain rfl := Instr.shift.inj (eq_withOperands_of_decodePort h)
    exact f1Field_toNat w
  · obtain ⟨rfl, rfl⟩ := Instr.command.inj (eq_withOperands_of_decodePort h)
    exact ⟨f1Field_toNat w, f2Field_toNat w⟩
  · exact Instr.writeFrame.inj (eq_withOperands_of_decodePort h)

end Sys2Proof

/-! ### The wire formats (30_encoding.md R79 to R83)

The bits of a byte, of a command frame and of a row frame by their place, and what SHIFT, COMMAND and TICK put on the
wire. -/

namespace Sys2Proof.Machine

/-! ### Bits by their place -/

@[simp] theorem length_byteBits (b : Byte) : (byteBits b).length = 8 := rfl

theorem byteBits_eq_map_range (b : Byte) : byteBits b = (List.range 8).map fun k => b.getLsbD (7 - k) := rfl

/-- Bit `k` sent is bit `7 - k` of the byte (30_encoding.md R80). -/
theorem getElem?_byteBits (b : Byte) (k : Nat) (hk : k < 8) : (byteBits b)[k]? = some (b.getLsbD (7 - k)) := by
  rw [byteBits_eq_map_range, List.getElem?_map, List.getElem?_range hk, Option.map_some]

/-- In a list of blocks of `n`, place `n*m + k` is place `k` of block `m`. -/
theorem getElem?_flatMap_block {α β : Type} {n : Nat} {f : α → List β} (hf : ∀ a, (f a).length = n) {k : Nat}
    (hk : k < n) (l : List α) (m : Nat) : (l.flatMap f)[n * m + k]? = l[m]?.bind fun a => (f a)[k]? := by
  induction l generalizing m with
  | nil => simp
  | cons a l ih =>
    rw [List.flatMap_cons]
    cases m with
    | zero => rw [List.getElem?_append_left (by rw [hf]; omega)]; simp
    | succ m =>
      rw [List.getElem?_append_right (by rw [hf, Nat.mul_succ]; omega), hf, List.getElem?_cons_succ, ← ih]
      congr 1
      rw [Nat.mul_succ]
      omega

theorem moduleOrder_eq_map_range : moduleOrder = (List.range 4).map (BitVec.ofNat 2) := rfl

theorem moduleColumns_eq_map_range (m : BitVec 2) :
    moduleColumns m = (List.range 8).map fun j => column m (BitVec.ofNat 3 j) := rfl

/-- The global column of a module's pixel, as numbers (41_render_engine.md R133). -/
theorem column_ofNat {m j : Nat} (hj : j < 8) :
    column (BitVec.ofNat 2 m) (BitVec.ofNat 3 j) = BitVec.ofNat 5 (8 * m + j) := by
  apply BitVec.eq_of_toNat_eq
  simp [column]
  omega

/-- The row-select byte is `row + 1`, which never wraps (41_render_engine.md R134). -/
theorem rowSelect_toNat (r : RowIx) : (rowSelect r).toNat = r.toNat + 1 := by
  have := r.isLt
  simp [rowSelect]
  omega

/-- Place `16m + k` of a row frame is place `k` of what module `m` takes (30_encoding.md R83). -/
theorem getElem?_rowFrameBits (r : RowIx) (c : ColIx → Bool) {m k : Nat} (hm : m < 4) (hk : k < 16) :
    (rowFrameBits r c)[16 * m + k]? =
      (byteBits (rowSelect r) ++ (moduleColumns (BitVec.ofNat 2 m)).map c)[k]? := by
  rw [rowFrameBits, getElem?_flatMap_block (n := 16) (fun _ => rfl) hk, moduleOrder_eq_map_range, List.getElem?_map,
    List.getElem?_range hm]
  rfl

theorem getElem?_rowFrameBits_rowSelect (r : RowIx) (c : ColIx → Bool) {m k : Nat} (hm : m < 4) (hk : k < 8) :
    (rowFrameBits r c)[16 * m + k]? = some ((r.toNat + 1).testBit (7 - k)) := by
  rw [getElem?_rowFrameBits r c hm (by omega), List.getElem?_append_left hk, getElem?_byteBits _ k hk,
    BitVec.getLsbD, rowSelect_toNat]

theorem getElem?_rowFrameBits_pixel (r : RowIx) (c : ColIx → Bool) {m j : Nat} (hm : m < 4) (hj : j < 8) :
    (rowFrameBits r c)[16 * m + 8 + j]? = some (c (BitVec.ofNat 5 (8 * m + j))) := by
  rw [Nat.add_assoc, getElem?_rowFrameBits r c hm (by omega), List.getElem?_append_right (by simp), length_byteBits,
    Nat.add_sub_cancel_left, moduleColumns_eq_map_range, List.map_map, List.getElem?_map, List.getElem?_range hj,
    Option.map_some, Function.comp_apply, column_ofNat hj]

/-! ### Frames -/

theorem head?_commandEvents (c d : Byte) : (commandEvents c d).head? = some (.line .lat false) := rfl

theorem getLast?_commandEvents (c d : Byte) : (commandEvents c d).getLast? = some (.line .lat true) :=
  List.getLast?_concat

theorem head?_rowFrameEvents (r : RowIx) (c : ColIx → Bool) :
    (rowFrameEvents r c).head? = some (.line .lat false) := rfl

theorem getLast?_rowFrameEvents (r : RowIx) (c : ColIx → Bool) :
    (rowFrameEvents r c).getLast? = some (.line .lat true) :=
  List.getLast?_concat

theorem sampledBits_append_byteEvents (es : List Event) (b : Byte) :
    sampledBits (es ++ byteEvents b) = sampledBits es ++ byteBits b := by
  rw [sampledBits, readWire_append, readWire_byteEvents, sampledBits]

theorem sampledBits_commandEvents (c d : Byte) : sampledBits (commandEvents c d) = byteBits c ++ byteBits d := by
  rw [sampledBits, readWire_command c d .start rfl]
  rfl

theorem burstsOf_commandEvents (c d : Byte) : burstsOf (commandEvents c d) = [byteBits c ++ byteBits d] := by
  rw [burstsOf, readWire_command c d .start rfl]
  rfl

theorem sampledBits_rowFrameEvents (r : RowIx) (c : ColIx → Bool) :
    sampledBits (rowFrameEvents r c) = rowFrameBits r c := by
  obtain ⟨_, _, hw⟩ := readWire_rowFrame r c .start rfl
  rw [sampledBits, hw]
  rfl

theorem burstsOf_rowFrameEvents (r : RowIx) (c : ColIx → Bool) : burstsOf (rowFrameEvents r c) = [rowFrameBits r c] := by
  obtain ⟨_, _, hw⟩ := readWire_rowFrame r c .start rfl
  rw [burstsOf, hw]
  rfl

/-! ### The requests that send -/

/-- Settles O27: SHIFT appends the events of its byte, each bit of which is clocked low first, so that the lines before
it do not matter (40_protocol_driver.md R106). -/
theorem shiftSamplesItsByte : Obligations.ShiftSamplesItsByte := by
  unfold Obligations.ShiftSamplesItsByte
  intro s b h hm
  refine ⟨_, exec_effect (.shift b) s h.1 (fun _ => h.2) (by rw [hm]; rfl), ?_⟩
  rw [shiftEffect_eq]
  exact sampledBits_append_byteEvents s.trace b

/-- Settles O28: COMMAND appends a command frame, which reads as one burst of its two bytes. -/
theorem commandIsOneBurst : Obligations.CommandIsOneBurst := by
  unfold Obligations.CommandIsOneBurst
  intro s c d h hm
  refine ⟨_, commandEvents c d, byteBits c ++ byteBits d,
    exec_effect (.command c d) s h.1 (fun _ => h.2) (by rw [hm]; rfl), by rw [commandEffect_eq],
    head?_commandEvents c d, getLast?_commandEvents c d, burstsOf_commandEvents c d, sampledBits_commandEvents c d, rfl,
    fun k hk => ?_, fun k hk => ?_⟩
  · rw [List.getElem?_append_left hk, getElem?_byteBits c k hk]
  · rw [List.getElem?_append_right (by simp), length_byteBits, Nat.add_sub_cancel_left, getElem?_byteBits d k hk]

/-- Settles O31: a TICK while ENABLED appends a row frame (`rowRender_spec`), which reads as one burst of the frame's
64 bits. -/
theorem rowFrameOnTheWire : Obligations.RowFrameOnTheWire := by
  unfold Obligations.RowFrameOnTheWire
  intro s h hmode
  obtain ⟨a, hrender, _⟩ := rowRender_spec s
  refine ⟨_, rowFrameEvents s.row (pixelBit s s.row), rowFrameBits s.row (pixelBit s s.row),
    exec_effect .tick s h (fun ht => absurd rfl ht) (faultOf_tick s.mode), by rw [tickEffect_enabled s hmode, hrender],
    head?_rowFrameEvents .., getLast?_rowFrameEvents .., burstsOf_rowFrameEvents .., sampledBits_rowFrameEvents ..,
    length_rowFrameBits .., fun m hm k hk => getElem?_rowFrameBits_rowSelect s.row _ hm hk,
    fun m hm j hj => getElem?_rowFrameBits_pixel s.row _ hm hj⟩

end Sys2Proof.Machine

/-! ### The panel protocol driver (40_protocol_driver.md R100 to R109)

LATCH, SHIFT and COMMAND share their checks: each has its effect while DISABLED and faults with BUS_BUSY while ENABLED
(60_exceptions.md R212). Then the lines across every step: only `Drive` writes one, and it records the drive. -/

namespace Sys2Proof.Machine

/-! ### The requests on the bus -/

/-- The three requests of the driver, those that raise BUS_BUSY (60_exceptions.md R212). -/
inductive BusRequest : Instr → Prop where
  | latch (level : Level) : BusRequest (.latch level)
  | shift (byte : Byte) : BusRequest (.shift byte)
  | command (cmd data : Byte) : BusRequest (.command cmd data)

theorem exec_bus_disabled {i : Instr} {s : State} (hi : BusRequest i) (h : HostReady s) (hm : s.mode = .disabled) :
    exec i s = .next (effectOf i s) :=
  exec_effect i s h.1 (fun _ => h.2) (by rw [hm]; cases hi <;> rfl)

theorem exec_bus_enabled {i : Instr} {s : State} (hi : BusRequest i) (h : HostReady s) (hm : s.mode = .enabled) :
    exec i s = .next { s with fault := some ⟨.busBusy, encodeWord i⟩ } :=
  exec_fault i s h .busBusy (by rw [hm]; cases hi <;> rfl)

/-- A bus request leaves the host ready and the mode as it is. -/
theorem busEffect_ready {i : Instr} {s : State} (hi : BusRequest i) (h : HostReady s) (hm : s.mode = .disabled) :
    HostReady (effectOf i s) ∧ (effectOf i s).mode = .disabled := by
  cases hi with
  | latch level => exact ⟨h, hm⟩
  | shift byte => rw [shiftEffect_eq]; exact ⟨h, hm⟩
  | command cmd data => rw [commandEffect_eq]; exact ⟨h, hm⟩

/-- Bus requests run back to back while DISABLED: none of them faults, and their effects follow one another. -/
theorem execAll_bus (is : List Instr) (s : State) (hb : ∀ i ∈ is, BusRequest i) (h : HostReady s)
    (hm : s.mode = .disabled) : execAll is s = .next (is.foldl (fun u i => effectOf i u) s) := by
  induction is generalizing s with
  | nil => rfl
  | cons i is ih =>
    obtain ⟨hi, his⟩ := List.forall_mem_cons.1 hb
    obtain ⟨h', hm'⟩ := busEffect_ready hi h hm
    rw [execAll, exec_bus_disabled hi h hm, List.foldl_cons]
    exact ih (effectOf i s) his h' hm'

/-- The events of a byte, group by group, each with the number of its bit (40_protocol_driver.md R102). -/
theorem byteEvents_eq_flatMap (b : Byte) :
    byteEvents b = [7, 6, 5, 4, 3, 2, 1, 0].flatMap fun k =>
      [.line .clk false, .line .dat (b.getLsbD k), .line .clk true] :=
  List.flatMap_map ..

/-- Settles O24. -/
theorem shiftResult : Obligations.ShiftResult := by
  unfold Obligations.ShiftResult
  intro s b h
  refine ⟨fun hm => ?_, exec_bus_enabled (.shift b) h⟩
  rw [exec_bus_disabled (.shift b) h hm, shiftEffect_eq, byteEvents_eq_flatMap]

/-- Settles O25. -/
theorem commandResult : Obligations.CommandResult := by
  unfold Obligations.CommandResult
  intro s c d h
  refine ⟨fun hm => ?_, exec_bus_enabled (.command c d) h⟩
  rw [exec_bus_disabled (.command c d) h hm, commandEffect_eq, commandEvents, byteEvents_eq_flatMap,
    byteEvents_eq_flatMap]
  simp only [List.cons_append, List.nil_append, List.append_assoc]

/-- Settles O26: COMMAND is written as the effects of the four requests, one after another. -/
theorem commandEqualsFourRequests : Obligations.CommandEqualsFourRequests := by
  unfold Obligations.CommandEqualsFourRequests
  intro s c d h hm
  have hb : ∀ i ∈ [Instr.latch false, .shift c, .shift d, .latch true], BusRequest i := by
    simp only [List.forall_mem_cons]
    exact ⟨.latch false, .shift c, .shift d, .latch true, nofun⟩
  exact ⟨_, exec_bus_disabled (.command c d) h hm, execAll_bus _ s hb h hm⟩

/-- Settles O23. -/
theorem latchResult : Obligations.LatchResult := by
  unfold Obligations.LatchResult
  intro s l h
  have hword : encodeWord (.latch l) = if l then 0x00000106 else 0x00000006 := by cases l <;> rfl
  exact ⟨exec_bus_disabled (.latch l) h, hword ▸ exec_bus_enabled (.latch l) h⟩

/-! ### The lines follow the trace -/

theorem lastDrive_append (l : Line) (es fs : List Event) :
    lastDrive l (es ++ fs) = (lastDrive l fs).or (lastDrive l es) := by
  rw [lastDrive, List.filterMap_append, List.getLast?_append]
  rfl

/-- From `s` to `t` events are appended, and each line goes to the level of its last drive among them, or stays where it
was (40_protocol_driver.md R100). -/
def DrivesRecorded (s t : State) : Prop :=
  ∃ es, t.trace = s.trace ++ es ∧ ∀ l, t.level l = (lastDrive l es).getD (s.level l)

theorem DrivesRecorded.of_eq {s t : State} (htrace : t.trace = s.trace) (hlevel : ∀ l, t.level l = s.level l) :
    DrivesRecorded s t := ⟨[], by rw [htrace, List.append_nil], hlevel⟩

theorem DrivesRecorded.linesFollowTrace {s t : State} (h : DrivesRecorded s t) (hs : LinesFollowTrace s) :
    LinesFollowTrace t := by
  obtain ⟨es, htrace, hlevel⟩ := h
  intro l v hv
  rw [htrace, lastDrive_append] at hv
  rw [hlevel l]
  cases hd : lastDrive l es with
  | none =>
    rw [hd, Option.none_or] at hv
    exact hs l v hv
  | some w =>
    rw [hd, Option.some_or] at hv
    exact Option.some.inj hv

/-- A row render leaves its last drives of the lines: the bit of column 31, the high clock, the closed latch. -/
theorem drivesRecorded_rowRender (s : State) : DrivesRecorded s (rowRender s) := by
  obtain ⟨a, he, _⟩ := rowRender_spec s
  rw [he]
  refine ⟨_, List.append_assoc .., fun l => ?_⟩
  have hvsync : lastDrive l (if s.row = 7 then [.vsync s.fc] else []) = none := by split <;> rfl
  rw [lastDrive_append, hvsync, Option.none_or]
  cases l <;> rfl

theorem drivesRecorded_effectOf (i : Instr) (s : State) : DrivesRecorded s (effectOf i s) := by
  cases i with
  | init =>
    change DrivesRecorded s (initEffect s)
    rw [initEffect_eq]
    exact ⟨_, rfl, fun l => by cases l <;> rfl⟩
  | writeFrame payload =>
    by_cases hp : payload.length = 256
    · rw [writeFrameEffect_eq payload s hp]; exact .of_eq rfl fun _ => rfl
    · rw [writeFrameEffect_bad payload s hp]; exact .of_eq rfl fun _ => rfl
  | enable | disable | setPeriod _ | latch _ => exact ⟨_, rfl, fun l => by cases l <;> rfl⟩
  | shift byte => rw [shiftEffect_eq]; exact ⟨_, rfl, fun l => by cases l <;> rfl⟩
  | command cmd data => rw [commandEffect_eq]; exact ⟨_, rfl, fun l => by cases l <;> rfl⟩
  | tick =>
    by_cases hm : s.mode = .enabled
    · rw [tickEffect_enabled s hm]; exact drivesRecorded_rowRender s
    · rw [tickEffect_ignored s hm]; exact .of_eq rfl fun _ => rfl

/-- No agent moves a line without recording it: the copy agent and the marks leave the lines alone. -/
theorem drivesRecorded_step {s t : State} (hst : step s = .next t) : DrivesRecorded s t := by
  obtain ⟨rest, rfl | ⟨f, r, rfl⟩ | ⟨i, _, rfl⟩⟩ := step_cases s t hst
  · obtain ⟨m, c, he⟩ := copyStep_frame (s.setTurns rest)
    rw [he]
    exact .of_eq rfl fun _ => rfl
  · exact .of_eq rfl fun _ => rfl
  · exact drivesRecorded_effectOf i (s.setTurns rest)

/-- Settles O44. -/
theorem linesFollowTraceAtReset : Obligations.LinesFollowTraceAtReset := fun _ _ hv => nomatch hv

/-- Settles O45: each line goes to its last new drive where the step records one, and else stays at its last old one. -/
theorem linesFollowTraceKept : Obligations.LinesFollowTraceKept := by
  unfold Obligations.LinesFollowTraceKept
  exact fun s t hs hst => (drivesRecorded_step hst).linesFollowTrace hs

end Sys2Proof.Machine

/-! ### The render engine (41_render_engine.md R130 to R140)

One TICK by its fields (`rowRender_eq`) and by its pixels (`lit_add_acc_rowRender`); then any number of TICKs in a row
by one invariant (`AfterTicks`), which counts the renders of each row. The frame and the pulse-density law read it at
8 and at `8k` TICKs. -/

namespace Sys2Proof.Machine

/-- Settles O29. -/
theorem pixelUpdateArithmetic : Obligations.PixelUpdateArithmetic := by
  unfold Obligations.PixelUpdateArithmetic
  intro a f
  refine ⟨pixelSum_toNat a f, ?_, ?_⟩
  · rw [pixelWrapped_eq_add, BitVec.toNat_add]
  · rw [pixelCarry_eq_decide, decide_eq_true_iff, gt_iff_lt]

/-! ### One TICK -/

/-- What a TICK emits while ENABLED: the row frame, and the notification after row 7 (41_render_engine.md R132,
R136). -/
def tickEvents (s : State) : List Event :=
  rowFrameEvents s.row (pixelBit s s.row) ++ if s.row = 7 then [.vsync s.fc] else []

/-- The row render, field by field: `rowRender_spec` without a name for the accumulators it leaves. -/
theorem rowRender_eq (s : State) :
    rowRender s =
      { s with
        acc := (rowRender s).acc
        dat := pixelBit s s.row 31
        clk := true
        lat := true
        row := s.row + 1
        fc := if s.row = 7 then s.fc + 1 else s.fc
        trace := s.trace ++ tickEvents s } := by
  obtain ⟨a, h, _⟩ := rowRender_spec s
  rw [h, List.append_assoc]
  rfl

theorem readAcc_rowRender (s : State) (i : Index) :
    (rowRender s).readAcc i = if indexRow i = s.row then s.readAcc i + s.readFb i else s.readAcc i := by
  obtain ⟨a, h, hread, _⟩ := rowRender_spec s
  rw [h]
  exact hread i

theorem exec_tick_enabled {s : State} (h : Running s) (hm : s.mode = .enabled) :
    exec .tick s = .next (rowRender s) := by
  rw [exec_effect .tick s h (fun ht => absurd rfl ht) (faultOf_tick s.mode), tickEffect_enabled s hm]

theorem exec_tick_ignored {s : State} (h : Running s) (hm : s.mode ≠ .enabled) : exec .tick s = .next s := by
  rw [exec_effect .tick s h (fun ht => absurd rfl ht) (faultOf_tick s.mode), tickEffect_ignored s hm]

/-- Settles O30: the fields of `rowRender_eq`, and the accumulators of the row and of the other rows. -/
theorem tickResult : Obligations.TickResult := by
  unfold Obligations.TickResult
  refine fun s h => ⟨fun hm => ⟨rowRender s, exec_tick_enabled h hm, ?_, fun x => ?_, fun r x hr => ?_⟩,
    exec_tick_ignored h⟩
  · rw [List.append_assoc]; exact rowRender_eq s
  · rw [readAcc_rowRender, if_pos (indexRow_cellIndex ..), BitVec.toNat_add]
  · rw [readAcc_rowRender, indexRow_cellIndex, if_neg hr]

/-- Settles O32: what a TICK appends is a row frame, all of whose events are line drives, then the
notification. -/
theorem rowRenderEventCount : Obligations.RowRenderEventCount := by
  unfold Obligations.RowRenderEventCount
  intro s h hm
  have hlines : lineCount (rowFrameEvents s.row (pixelBit s s.row)) = 194 := by
    rw [← length_rowFrameEvents s.row (pixelBit s s.row), lineCount, List.countP_eq_length, ← List.all_eq_true]
    exact rowFrameEvents_isLine ..
  exact ⟨_, _, _, exec_tick_enabled h hm, by rw [rowRender_eq, tickEvents],
    length_rowFrameEvents .., hlines, head?_rowFrameEvents .., getLast?_rowFrameEvents .., rfl⟩

/-- A black pixel's bit is 0: its sum is the accumulator, which a byte holds (41_render_engine.md R131). -/
theorem pixelBit_eq_false_of_black {s : State} {r : RowIx} {x : ColIx} (h : s.readFb (cellIndex r x) = 0) :
    pixelBit s r x = false := by
  simpa [pixelBit, h] using Nat.le_of_lt_succ (s.readAcc (cellIndex r x)).isLt

/-- Settles O33. -/
theorem blackRowStaysDark : Obligations.BlackRowStaysDark := by
  unfold Obligations.BlackRowStaysDark
  intro s h hm hblack
  refine ⟨rowRender s, exec_tick_enabled h hm, fun i => ?_, ?_⟩
  · rw [readAcc_rowRender]
    split
    case isTrue hi =>
      have : s.readFb i = 0 := by rw [← cellIndex_row_col i, hi]; exact hblack (indexCol i)
      rw [this]; exact BitVec.add_zero _
    case isFalse => rfl
  · have hdark : pixelBit s s.row = fun _ => false := funext fun x => pixelBit_eq_false_of_black (hblack x)
    rw [rowRender_eq, tickEvents, hdark, List.append_assoc]

/-! ### One TICK on the wire -/

/-- The row-select byte tells the rows apart. -/
theorem byteBits_rowSelect_inj (r r' : RowIx) : byteBits (rowSelect r') = byteBits (rowSelect r) ↔ r' = r := by
  revert r r'; decide

/-- A row frame lights its own row's pixels only, by their bits (30_encoding.md R83). -/
theorem framePixel_rowFrameBits (r r' : RowIx) (x : ColIx) (c : ColIx → Bool) :
    framePixel r x (rowFrameBits r' c) = (decide (r' = r) && c x) := by
  have hselect : (rowFrameBits r' c).take 8 = byteBits (rowSelect r') := rfl
  have hpixel : (rowFrameBits r' c)[16 * (x.toNat / 8) + 8 + x.toNat % 8]? = some (c x) := by
    rw [getElem?_rowFrameBits_pixel r' c (by omega) (by omega), Nat.div_add_mod, BitVec.ofNat_toNat,
      BitVec.setWidth_eq]
  rw [framePixel, hselect, List.getD_eq_getElem?_getD, hpixel, Option.getD_some, beq_eq_decide]
  simp only [byteBits_rowSelect_inj]

theorem litCount_append (r : RowIx) (x : ColIx) (bs cs : List (List Bool)) :
    litCount r x (bs ++ cs) = litCount r x bs + litCount r x cs :=
  List.countP_append

/-- Read with no burst open, what a TICK emits is one burst. -/
theorem readWire_tickEvents {w : Wire} (h : w.burst = none) (s : State) :
    (readWire w (tickEvents s)).burst = none ∧
      (readWire w (tickEvents s)).bursts = w.bursts ++ [rowFrameBits s.row (pixelBit s s.row)] := by
  obtain ⟨d, k, hw⟩ := readWire_rowFrame s.row (pixelBit s s.row) w h
  rw [tickEvents, readWire_append, hw]
  split <;> exact ⟨h, rfl⟩

theorem vsyncs_tickEvents (s : State) : vsyncs (tickEvents s) = if s.row = 7 then [s.fc] else [] := by
  rw [tickEvents, vsyncs_append, vsyncs_rowFrameEvents]
  split <;> rfl

/-- A TICK keeps 256 times the pixel's lit count, plus its accumulator, growing by its brightness when its row is
rendered, and only then: what the wrap takes from the accumulator is what the bit counts (41_render_engine.md R131). -/
theorem lit_add_acc_rowRender (s : State) (r : RowIx) (x : ColIx) :
    256 * litCount r x [rowFrameBits s.row (pixelBit s s.row)] + ((rowRender s).readAcc (cellIndex r x)).toNat =
      (s.readAcc (cellIndex r x)).toNat + if s.row = r then (s.readFb (cellIndex r x)).toNat else 0 := by
  rw [litCount, List.countP_singleton, framePixel_rowFrameBits, readAcc_rowRender, indexRow_cellIndex]
  by_cases hr : s.row = r
  · subst hr
    have ha := (s.readAcc (cellIndex s.row x)).isLt
    have hf := (s.readFb (cellIndex s.row x)).isLt
    simp only [decide_true, Bool.true_and, if_true, pixelBit, decide_eq_true_iff, BitVec.toNat_add]
    split <;> omega
  · simp [hr, Ne.symm hr]

/-! ### Runs of TICKs -/

/-- How many of `n` row renders in a row, the first of them of row `r0`, render row `r` (41_render_engine.md R135). -/
def renders (n : Nat) (r0 r : RowIx) : Nat := Nat.count (fun j => r0 + BitVec.ofNat 3 j = r) n

theorem renders_succ (n : Nat) (r0 r : RowIx) :
    renders (n + 1) r0 r = renders n r0 r + if r0 + BitVec.ofNat 3 n = r then 1 else 0 :=
  Nat.count_succ ..

/-- The cursor is at row `r` exactly every eighth render. -/
theorem row_add_eq_iff (r0 r : RowIx) (j : Nat) : r0 + BitVec.ofNat 3 j = r ↔ j ≡ (r - r0).toNat [MOD 8] := by
  rw [← BitVec.toNat_inj, Nat.ModEq, BitVec.toNat_add, BitVec.toNat_sub, BitVec.toNat_ofNat]
  omega

/-- `k` frames render every row `k` times, from whichever row they start. -/
theorem renders_frames (k : Nat) (r0 r : RowIx) : renders (8 * k) r0 r = k := by
  simp [renders, row_add_eq_iff, Nat.count_modEq_card _ (show 0 < 8 by decide)]

/-- What `n` TICKs while ENABLED make of `s`: the state `t` they leave and the events `es` they append. -/
structure AfterTicks (n : Nat) (s t : State) (es : List Event) : Prop where
  running : Running t
  mode : t.mode = .enabled
  row : t.row = s.row + BitVec.ofNat 3 n
  fb : t.fb = s.fb
  trace : t.trace = s.trace ++ es
  /-- each render of row 7 advances the frame counter -/
  fc : t.fc = s.fc + BitVec.ofNat 32 (renders n s.row 7)
  /-- each render of row 7 notifies the counter's value before it -/
  vsyncs : vsyncs es = (List.range (renders n s.row 7)).map fun j => s.fc + BitVec.ofNat 32 j
  /-- the next row frame is a burst of its own -/
  closed : (readWire .start es).burst = none
  /-- the lit count and the accumulator hold what the renders of the pixel's row have added up -/
  pixels : ∀ r x, 256 * litCount r x (burstsOf es) + (t.readAcc (cellIndex r x)).toNat =
    (s.readAcc (cellIndex r x)).toNat + renders n s.row r * (s.readFb (cellIndex r x)).toNat

theorem AfterTicks.zero {s : State} (h : Running s) (hm : s.mode = .enabled) : AfterTicks 0 s s [] where
  running := h
  mode := hm
  row := (BitVec.add_zero _).symm
  fb := rfl
  trace := (List.append_nil _).symm
  fc := (BitVec.add_zero _).symm
  vsyncs := rfl
  closed := rfl
  pixels r x := by simp [renders, burstsOf, Wire.start, litCount]

theorem AfterTicks.setTurns {n : Nat} {s t : State} {es : List Event} (h : AfterTicks n s t es) (rest : List Turn) :
    AfterTicks n s (t.setTurns rest) es :=
  { h with }

/-- One more TICK. -/
theorem AfterTicks.succ {n : Nat} {s t : State} {es : List Event} (h : AfterTicks n s t es) :
    AfterTicks (n + 1) s (rowRender t) (es ++ tickEvents t) := by
  obtain ⟨hclosed, hbursts⟩ := readWire_tickEvents h.closed t
  rw [← readWire_append] at hclosed hbursts
  have h7 := renders_succ n s.row 7
  rw [← h.row] at h7
  constructor
  case running => rw [rowRender_eq]; exact h.running
  case mode => rw [rowRender_eq]; exact h.mode
  case row => rw [rowRender_eq, BitVec.ofNat_add, ← BitVec.add_assoc, ← h.row]; rfl
  case fb => rw [rowRender_eq]; exact h.fb
  case trace => rw [rowRender_eq, h.trace, List.append_assoc]
  case fc =>
    rw [rowRender_eq, h7, BitVec.ofNat_add, ← BitVec.add_assoc, ← h.fc]
    split
    · rfl
    · exact (BitVec.add_zero _).symm
  case vsyncs =>
    rw [vsyncs_append, vsyncs_tickEvents, h.vsyncs, h7, h.fc]
    split
    · rw [List.range_succ, List.map_append]; rfl
    · exact List.append_nil _
  case closed => exact hclosed
  case pixels =>
    intro r x
    have hfb : t.readFb (cellIndex r x) = s.readFb (cellIndex r x) := by rw [State.readFb, h.fb]; rfl
    have hbefore := h.pixels r x
    have htick := lit_add_acc_rowRender t r x
    rw [hfb] at htick
    rw [burstsOf, hbursts, litCount_append, renders_succ, ← h.row, Nat.add_mul, ite_mul, Nat.one_mul, Nat.zero_mul]
    rw [burstsOf] at hbefore
    omega

/-- The step of a TICK while ENABLED; a copy in flight does not hold it (41_render_engine.md R130). -/
theorem step_tick {s : State} {rest : List Turn} (h : Running s) (hm : s.mode = .enabled)
    (hturns : s.turns = .timer tickWord :: rest) : step s = .next (rowRender (s.setTurns rest)) := by
  rw [step, nextStep, unlessStopped_running s _ h, hturns]
  exact exec_tick_enabled (s := s.setTurns rest) h hm

/-- A run over `n` TICKs ends `AfterTicks`, with the turns behind them still to come. -/
theorem runSteps_ticks (n : Nat) {s : State} {rest : List Turn} (h : Running s) (hm : s.mode = .enabled)
    (hturns : s.turns = ticks n ++ rest) :
    ∃ t es, runSteps n s = .next t ∧ t.turns = rest ∧ AfterTicks n s t es := by
  induction n generalizing rest with
  | zero => exact ⟨s, [], rfl, hturns, .zero h hm⟩
  | succ n ih =>
    have hsplit : s.turns = ticks n ++ .timer tickWord :: rest := by
      rw [hturns, ticks, List.replicate_succ', List.append_assoc]
      rfl
    obtain ⟨t, es, hrun, ht, hafter⟩ := ih hsplit
    refine ⟨_, _, ?_, ?_, (hafter.setTurns rest).succ⟩
    · rw [runSteps_add n 1 s t hrun]
      exact runSteps_succ 0 t _ (step_tick hafter.running hafter.mode ht)
    · rw [rowRender_eq]; rfl

/-- Settles O34: eight renders come back to the row and pass row 7 once. -/
theorem eightTicksMakeOneFrame : Obligations.EightTicksMakeOneFrame := by
  unfold Obligations.EightTicksMakeOneFrame
  intro s rest h hm hturns
  obtain ⟨t, es, hrun, ht, hafter⟩ := runSteps_ticks 8 h hm hturns
  have honce : renders 8 s.row 7 = 1 := renders_frames 1 s.row 7
  refine ⟨t, hrun, ?_, ?_, ?_, hafter.mode, ht⟩
  · rw [hafter.row]; exact BitVec.add_zero _
  · rw [hafter.fc, honce]; rfl
  · rw [hafter.trace, vsyncs_append, hafter.vsyncs, honce]
    simp

/-- Settles O35: `k` frames render the pixel's row `k` times, so that 256 times the lit count plus the accumulator is
`a0 + k*b`; the accumulator, below 256, is the remainder. -/
theorem pulseDensityLaw : Obligations.PulseDensityLaw := by
  unfold Obligations.PulseDensityLaw
  intro k s rest r x h hm hturns
  obtain ⟨t, es, hrun, _, hafter⟩ := runSteps_ticks (8 * k) h hm hturns
  have hsum := hafter.pixels r x
  have hlt := (t.readAcc (cellIndex r x)).isLt
  rw [renders_frames] at hsum
  exact ⟨t, es, hrun, hafter.trace, by omega, by omega⟩

end Sys2Proof.Machine


/-! ### The lifecycle requests and the copy (42_lifecycle.md R161 to R166)

ENABLE and SET_PERIOD by their effects and faults; then the copy agent: one step by `CopyAdvances`, and any number of
steps of one copy by the state they leave (`afterCopySteps`), which a WRITE_FRAME starts and 256 of them complete. -/

namespace Sys2Proof.Machine

/-! ### ENABLE and SET_PERIOD -/

/-- Settles O20. -/
theorem enableResult : Obligations.EnableResult := by
  unfold Obligations.EnableResult
  refine fun s h => ⟨fun hm => ?_, fun hm => ?_⟩
  · exact exec_effect .enable s h.1 (fun _ => h.2) (by rw [hm]; rfl)
  · exact exec_fault .enable s h .enableWhileEnabled (by rw [hm]; rfl)

/-- After INIT no divider is refused (42_lifecycle.md R165). -/
theorem faultOf_setPeriod (d : Period) {m : Mode} (hm : m ≠ .uninit) : faultOf (.setPeriod d) m = none := by
  cases m with
  | uninit => exact absurd rfl hm
  | disabled | enabled => rfl

/-- Settles O22. -/
theorem setPeriodResult : Obligations.SetPeriodResult := by
  unfold Obligations.SetPeriodResult
  exact fun s d h hm => exec_effect (.setPeriod d) s h.1 (fun _ => h.2) (faultOf_setPeriod d hm)

/-! ### The orders of a copy -/

/-- Only the choices numbered below the list's length are looked at. -/
theorem shuffle_congr {f g : Nat → Nat} (is : List Index) (h : ∀ k < is.length, f k = g k) :
    shuffle f is = shuffle g is := by
  induction is with
  | nil => rfl
  | cons i is ih => rw [shuffle, shuffle, ih fun k hk => h k (Nat.lt_succ_of_lt hk), h is.length (Nat.lt_succ_self _)]

/-- Every reordering is some choice: the place at which it has the head is the last choice, and what is left without
the head reorders the tail. -/
theorem exists_shuffle_eq {is l : List Index} (h : l.Perm is) : ∃ pick, shuffle pick is = l := by
  induction is generalizing l with
  | nil => exact ⟨id, h.eq_nil.symm⟩
  | cons i is ih =>
    obtain ⟨n, hn, rfl⟩ := List.getElem_of_mem (h.mem_iff.2 List.mem_cons_self)
    obtain ⟨pick, hpick⟩ := ih ((List.getElem_cons_eraseIdx_perm hn).trans h).cons_inv
    have htail : shuffle (Function.update pick is.length n) is = l.eraseIdx n :=
      (shuffle_congr is fun k hk => Function.update_of_ne hk.ne _ _).trans hpick
    have hplace : n % (is.length + 1) = n := Nat.mod_eq_of_lt (hn.trans_eq h.length_eq)
    refine ⟨Function.update pick is.length n, ?_⟩
    rw [shuffle, htail, Function.update_self, hplace, List.insertIdx_eraseIdx_getElem hn]

/-- Settles O41. -/
theorem everyCopyOrderIsAdmitted : Obligations.EveryCopyOrderIsAdmitted := by
  unfold Obligations.EveryCopyOrderIsAdmitted
  exact fun l h => exists_shuffle_eq h

/-! ### The turns of the copy agent and the host -/

theorem step_copyTurn {s : State} {rest : List Turn} (h : Running s) (hturns : s.turns = .copy :: rest) :
    step s = .next (copyStep (s.setTurns rest)) := by
  rw [step, nextStep, unlessStopped_running s _ h, hturns]

/-- With no turn to come the copy agent moves (log entry 1). -/
theorem step_noTurn {s : State} (h : Running s) (hturns : s.turns = []) : step s = .next (copyStep s) := by
  rw [step, nextStep, unlessStopped_running s _ h, hturns]

/-- The word of a host that a copy holds gives the step to the copy agent, and stays (60_exceptions.md R206). -/
theorem step_heldHost {s : State} {w : Word} {payload : List Byte} {rest : List Turn} (h : Running s)
    (hc : s.copy ≠ none) (hturns : s.turns = .host w payload :: rest) : step s = .next (copyStep s) := by
  rw [step, nextStep, unlessStopped_running s _ h, hturns]
  exact if_pos (Option.isSome_iff_ne_none.2 hc)

/-- A host that nothing holds presents its word (60_exceptions.md R206). -/
theorem step_readyHost {s : State} {w : Word} {payload : List Byte} {rest : List Turn} (h : HostReady s)
    (hturns : s.turns = .host w payload :: rest) : step s = presentOn .host w payload (s.setTurns rest) := by
  obtain ⟨hr, hc⟩ := h
  rw [step, nextStep, unlessStopped_running s _ hr, hturns]
  exact if_neg (by rw [hc]; exact nofun)

/-! ### One step of a copy -/

/-- The copy agent's step is the one of 42_lifecycle.md R162. -/
theorem copyAdvances_copyStep {s : State} {c : Copy} (hc : s.copy = some c) : CopyAdvances c s (copyStep s) := by
  have hstep := copyStep_some s c hc
  have hframe : copyStep s = { s with fb := (copyStep s).fb, copy := (copyStep s).copy } := by rw [hstep]
  have hcopy : (copyStep s).copy = copyAfterWrite c := by rw [hstep]
  refine ⟨hframe, readFb_copyStep s c hc, ?_⟩
  cases ha : copyAfterWrite c with
  | none =>
    have hlast := copyAfterWrite_none c ha
    exact ⟨fun _ => hcopy.trans ha, fun hmore => by omega⟩
  | some d =>
    obtain ⟨hpayload, horder, hnext⟩ := copyAfterWrite_some c d ha
    have hlt := d.next.isLt
    exact ⟨fun hlast => by omega, fun _ => ⟨d, hcopy.trans ha, hpayload, horder, hnext⟩⟩

/-- Settles O37: each of the three ways is a step of the copy agent. -/
theorem copyStepWritesOneByte : Obligations.CopyStepWritesOneByte := by
  unfold Obligations.CopyStepWritesOneByte
  refine fun s c h hc => ⟨fun rest hturns => ?_, fun hturns => ?_, fun w payload rest hturns => ?_⟩
  · exact ⟨_, step_copyTurn h hturns, copyAdvances_copyStep (s := s.setTurns rest) hc⟩
  · exact ⟨_, step_noTurn h hturns, copyAdvances_copyStep hc⟩
  · exact ⟨_, step_heldHost h (by rw [hc]; exact nofun) hturns, copyAdvances_copyStep hc⟩

/-- In canonical form, writing what is read changes nothing. -/
theorem Memory.write_read (m : Memory) (i : Index) (h : m.wf) : m.write i (m.read i) = m := by
  refine Memory.eq_of_read_eq _ m (Memory.wf_write m i _ h) h fun j => ?_
  rw [Memory.read_write]
  split
  case isTrue hj => rw [hj]
  case isFalse => rfl

/-- Settles O40: the copy agent writes the byte that is there, and no other agent writes the framebuffer. -/
theorem rewritingTheSameFrameChangesNothing : Obligations.RewritingTheSameFrameChangesNothing := by
  unfold Obligations.RewritingTheSameFrameChangesNothing
  intro s t c hinv hc hsame hst
  obtain ⟨⟨hfb, _⟩, _⟩ := hinv
  obtain ⟨rest, rfl⟩ | ⟨hkept, _⟩ := step_copying s t c hc hst
  · rw [copyStep_some (s.setTurns rest) c hc, ← hsame]
    exact Memory.write_read s.fb _ hfb
  · exact hkept

/-! ### A whole copy -/

/-- The copy `c` when `n` of its bytes have been written; none once all 256 have (42_lifecycle.md R162). -/
def copyAt (c : Copy) (n : Nat) : Option Copy := if h : n < 256 then some { c with next := ⟨n, h⟩ } else none

theorem copyAt_ne_none (c : Copy) {n : Nat} (h : n < 256) : copyAt c n ≠ none := by
  rw [copyAt, dif_pos h]
  exact nofun

/-- An array into which the first `n` bytes of the copy `c` have been written, in its order. -/
def copyInto (c : Copy) (n : Nat) (m : Memory) : Memory :=
  (c.order.toList.take n).foldl (fun m i => m.write i (payloadAt c.payload i)) m

theorem copyInto_succ (c : Copy) {n : Nat} (h : n < 256) (m : Memory) :
    copyInto c (n + 1) m = (copyInto c n m).write c.order[n] (payloadAt c.payload c.order[n]) := by
  have hlt : n < c.order.toList.length := by rwa [Vector.length_toList]
  rw [copyInto, ← List.take_concat_get' _ _ hlt, List.foldl_append, Vector.getElem_toList]
  rfl

/-- All 256 bytes of a copy are the payload, whatever the order. -/
theorem read_copyInto_all {c : Copy} (h : OrderComplete c) (m : Memory) (i : Index) :
    (copyInto c 256 m).read i = payloadAt c.payload i := by
  rw [copyInto, read_foldl_write, List.take_of_length_le (Vector.length_toList).le, if_pos (mem_order c h i)]

/-- What `n` steps of the copy `c` make of `s`. -/
def afterCopySteps (c : Copy) (n : Nat) (s : State) : State := { s with fb := copyInto c n s.fb, copy := copyAt c n }

theorem copyStep_afterCopySteps (c : Copy) {n : Nat} (h : n < 256) (s : State) :
    copyStep (afterCopySteps c n s) = afterCopySteps c (n + 1) s := by
  have hc : (afterCopySteps c n s).copy = some { c with next := ⟨n, h⟩ } := dif_pos h
  rw [copyStep_some _ _ hc, afterCopySteps, afterCopySteps, copyInto_succ c h]
  rfl

/-- A run over `n` turns of the copy agent. -/
theorem runSteps_copyTurns (c : Copy) {s : State} (h : Running s) (n : Nat) (hn : n ≤ 256) (rest : List Turn) :
    runSteps n (afterCopySteps c 0 (s.setTurns (List.replicate n .copy ++ rest))) =
      .next (afterCopySteps c n (s.setTurns rest)) := by
  induction n generalizing rest with
  | zero => rfl
  | succ n ih =>
    rw [List.replicate_succ', List.append_assoc, runSteps_add n 1 _ _ (ih (Nat.le_of_succ_le hn) _)]
    have hturn : step (afterCopySteps c n (s.setTurns (.copy :: rest))) =
        .next (copyStep (afterCopySteps c n (s.setTurns rest))) := step_copyTurn h rfl
    exact runSteps_succ 0 _ _ (hturn.trans (congrArg _ (copyStep_afterCopySteps c hn _)))

/-! ### WRITE_FRAME and its copy -/

theorem faultOf_writeFrame {p : List Byte} {m : Mode} (hm : m ≠ .uninit) (hp : p.length = 256) :
    faultOf (.writeFrame p) m = none := by
  cases m with
  | uninit => exact absurd rfl hm
  | disabled | enabled => exact if_pos hp

/-- The word of WRITE_FRAME on the host port is the request with its payload. -/
theorem decodePort_writeFrame (p : List Byte) : decodePort .host 0x00000002 p = .ok (.writeFrame p) :=
  (decodePort_eq_ok .host _ p (.writeFrame p)).2 ⟨.writeFrame, rfl, rfl, rfl, rfl⟩

/-- A WRITE_FRAME that the host may issue starts the copy of its payload, in some order (42_lifecycle.md R161). -/
theorem step_writeFrame {s : State} {p : List Byte} {rest : List Turn} (h : HostReady s) (hm : s.mode ≠ .uninit)
    (hp : p.length = 256) (hturns : s.turns = .host 0x00000002 p :: rest) :
    ∃ c : Copy, c.payload.toList = p ∧ OrderComplete c ∧
      step s = .next (afterCopySteps c 0 (s.countDraw.setTurns rest)) := by
  refine ⟨⟨⟨p.toArray, by simpa using hp⟩, copyOrder s.draws, 0⟩, rfl, copyOrder_nodup s.draws, ?_⟩
  rw [step_readyHost h hturns, presentOn, decodePort_writeFrame]
  refine (exec_effect _ (s.setTurns rest) h.1 (fun _ => h.2) (faultOf_writeFrame hm hp)).trans ?_
  rw [writeFrameEffect_eq p _ hp]
  rfl

/-- A byte of a payload, as a place in its list. -/
theorem some_payloadAt (q : Vector Byte 256) (i : Index) : some (payloadAt q i) = q.toList[i.toNat]? := by
  have hlt : i.toNat < q.toList.length := by rw [Vector.length_toList]; exact i.isLt
  rw [List.getElem?_eq_getElem hlt, Vector.getElem_toList, payloadAt]

/-- Settles O38: after the request and `k` copy turns `k` bytes have been written, and 256 of them are the payload. -/
theorem writeFrameCompletes : Obligations.WriteFrameCompletes := by
  unfold Obligations.WriteFrameCompletes
  intro s p rest h hm hp hturns
  obtain ⟨c, hpayload, horder, hstep⟩ := step_writeFrame h hm hp hturns
  have hrun : ∀ k ≤ 256, runSteps (1 + k) s =
      .next (afterCopySteps c k (s.countDraw.setTurns (List.replicate (256 - k) .copy ++ rest))) := by
    intro k hk
    have hsplit : List.replicate 256 Turn.copy ++ rest =
        List.replicate k .copy ++ (List.replicate (256 - k) .copy ++ rest) := by
      rw [← List.append_assoc, List.replicate_append_replicate, Nat.add_sub_cancel' hk]
    rw [Nat.add_comm, runSteps_succ k s _ hstep, hsplit]
    exact runSteps_copyTurns c (s := s.countDraw) h.1 k hk _
  refine ⟨fun k hk => ⟨_, hrun k hk.le, copyAt_ne_none c hk⟩, _, hrun 256 le_rfl, ?_, fun i => ?_⟩
  · have hnone : s.copy = copyAt c 256 := h.2
    rw [afterCopySteps, ← hnone]
    rfl
  · rw [← hpayload, ← some_payloadAt, ← read_copyInto_all horder s.fb]
    rfl

end Sys2Proof.Machine

/-! ### Exceptions (60_exceptions.md R201 to R220)

A word on its port by what the port decodes it to (`presentOn_ok`, `presentOn_error`); a step that leaves a mark by the
one mark it sets (`step_running_or_marked`); a request's faults by the table of codes (`exec_eq_fault_iff`,
`faultOf_eq_some_iff`) and its mode by the three transitions. -/

namespace Sys2Proof.Machine

/-! ### A word on its port -/

/-- A timer word is presented whether or not a copy is in flight (60_exceptions.md R206). -/
theorem step_timerTurn {s : State} {w : Word} {rest : List Turn} (h : Running s)
    (hturns : s.turns = .timer w :: rest) : step s = presentOn .timer w [] (s.setTurns rest) := by
  rw [step, nextStep, unlessStopped_running s _ h, hturns]
  rfl

theorem presentOn_ok {p : Port} {w : Word} {payload : List Byte} {i : Instr}
    (h : decodePort p w payload = .ok i) (s : State) : presentOn p w payload s = exec i s := by
  rw [presentOn, h]

theorem presentOn_error {p : Port} {w : Word} {payload : List Byte} {r : RefusalReason}
    (h : decodePort p w payload = .error r) (s : State) : presentOn p w payload s = .next (refuse r w s) := by
  rw [presentOn, h]

/-- Settles O8. -/
theorem stepRunsDecodedRequest : Obligations.StepRunsDecodedRequest := by
  unfold Obligations.StepRunsDecodedRequest
  refine ⟨fun s w payload rest i h hturns hd => ?_, fun s w rest i h hturns hd => ?_⟩
  · exact (step_readyHost h hturns).trans (presentOn_ok hd _)
  · exact (step_timerTurn h hturns).trans (presentOn_ok hd _)

/-- Settles O10. -/
theorem refusedWordIsRecorded : Obligations.RefusedWordIsRecorded := by
  unfold Obligations.RefusedWordIsRecorded
  refine ⟨fun s w payload rest r h hturns hd => ?_, fun s w rest r h hturns hd => ?_⟩
  · exact (step_readyHost h hturns).trans (presentOn_error hd _)
  · exact (step_timerTurn h hturns).trans (presentOn_error hd _)

/-! ### A step that leaves a mark -/

/-- A step leaves the machine running, or sets one mark and takes a turn (60_exceptions.md R202, R204). -/
theorem step_running_or_marked {s t : State} (h : step s = .next t) :
    Running t ∨ ∃ rest, (∃ f, t = { s with turns := rest, fault := some f }) ∨
      ∃ r, t = { s with turns := rest, refused := some r } := by
  obtain ⟨hr, ⟨rest, rfl⟩ | ⟨r, w, rest, rfl⟩ | ⟨i, rest, _, he⟩⟩ := step_next s t h
  · obtain ⟨m, c, hframe⟩ := copyStep_frame (s.setTurns rest)
    rw [hframe]
    exact .inl hr
  · exact .inr ⟨rest, .inr ⟨⟨r, w⟩, rfl⟩⟩
  · obtain ⟨_, _, ⟨c, _, rfl⟩ | ⟨_, rfl⟩⟩ := exec_next i _ t he
    · exact .inr ⟨rest, .inl ⟨⟨c, encodeWord i⟩, rfl⟩⟩
    · obtain ⟨hfault, hrefused⟩ := (effectOf_frame i (s.setTurns rest)).marks
      exact .inl ⟨hfault.trans hr.1, hrefused.trans hr.2⟩

/-- From a marked state no step and no request answers a next state. -/
theorem no_next_of_marked {t : State} (h : ¬ Running t) :
    (∀ u, step t ≠ .next u) ∧ ∀ (i : Instr) (u : State), exec i t ≠ .next u :=
  ⟨fun u hu => h (step_next t u hu).1, fun i u hu => h (exec_next i t u hu).1⟩

/-- Settles O13: the step sets one mark on a running machine, and the prelude stops every agent there. -/
theorem faultsAndRefusalsArePrecise : Obligations.FaultsAndRefusalsArePrecise := by
  unfold Obligations.FaultsAndRefusalsArePrecise
  intro s t hst hmark
  obtain ⟨⟨hfault, hrefused⟩, _⟩ := step_next s t hst
  have hnot : ¬ Running t := fun ⟨hf, hr⟩ => hmark.elim (absurd hf) (absurd hr)
  obtain hr | ⟨rest, ⟨f, rfl⟩ | ⟨r, rfl⟩⟩ := step_running_or_marked hst
  · exact absurd hr hnot
  · exact ⟨rfl, .inr hrefused, no_next_of_marked hnot⟩
  · exact ⟨rfl, .inl hfault, no_next_of_marked hnot⟩

/-! ### The table of fault codes -/

/-- Where the host may step, a request records exactly the fault of its check. -/
theorem exec_eq_fault_iff {s : State} (h : HostReady s) (i : Instr) (c : FaultCode) :
    exec i s = .next { s with fault := some ⟨c, encodeWord i⟩ } ↔ faultOf i s.mode = some c := by
  refine ⟨fun he => ?_, exec_fault i s h c⟩
  obtain ⟨_, _, ⟨d, hd, ht⟩ | ⟨_, ht⟩⟩ := exec_next i s _ he
  · have hmark : some (FaultMark.mk c (encodeWord i)) = some ⟨d, encodeWord i⟩ := congrArg State.fault ht
    cases hmark
    exact hd
  · have hfault : some (FaultMark.mk c (encodeWord i)) = none :=
      (congrArg State.fault ht).trans ((effectOf_frame i s).marks.1.trans h.1.1)
    cases hfault

/-- The table of the six codes, with the condition of each (60_exceptions.md R207 to R212). -/
theorem faultOf_eq_some_iff (i : Instr) (m : Mode) (c : FaultCode) :
    faultOf i m = some c ↔
      (c = .notInitialized ∧ i ≠ .init ∧ i ≠ .tick ∧ m = .uninit) ∨
      (c = .reinit ∧ i = .init ∧ m ≠ .uninit) ∨
      (c = .enableWhileEnabled ∧ i = .enable ∧ m = .enabled) ∨
      (c = .disableWhileDisabled ∧ i = .disable ∧ m = .disabled) ∨
      (c = .badFrameSize ∧ (∃ p, i = .writeFrame p ∧ p.length ≠ 256) ∧ m ≠ .uninit) ∨
      (c = .busBusy ∧ ((∃ l, i = .latch l) ∨ (∃ b, i = .shift b) ∨ ∃ a b, i = .command a b) ∧ m = .enabled) := by
  cases m with
  | uninit =>
    by_cases hi : i = .init
    · simp [hi, faultOf]
    by_cases ht : i = .tick
    · simp [ht, faultOf]
    · simp [faultOf_uninit i hi ht, hi, ht, eq_comm]
  | disabled | enabled =>
    cases i with
    | writeFrame p => by_cases hp : p.length = 256 <;> simp [faultOf, hp, eq_comm]
    | _ => simp [faultOf, eq_comm]

/-- Settles O14: a request records a fault exactly when its check raises it, and the checks are those of the table. -/
theorem faultCodesAsTabled : Obligations.FaultCodesAsTabled := by
  unfold Obligations.FaultCodesAsTabled
  refine ⟨⟨rfl, rfl, rfl, rfl, rfl, rfl⟩, fun i s c h => ?_⟩
  rw [exec_eq_fault_iff h, faultOf_eq_some_iff]

/-- Settles O15. -/
theorem nothingBeforeInit : Obligations.NothingBeforeInit := by
  unfold Obligations.NothingBeforeInit
  refine ⟨fun i s h hm hi ht => ?_, fun s h hm => ?_⟩
  · exact exec_fault i s h .notInitialized (by rw [hm, faultOf_uninit i hi ht])
  · exact exec_tick_ignored h (by rw [hm]; nofun)

/-! ### WRITE_FRAME and DISABLE -/

theorem faultOf_writeFrame_bad {p : List Byte} {m : Mode} (hm : m ≠ .uninit) (hp : p.length ≠ 256) :
    faultOf (.writeFrame p) m = some .badFrameSize := by
  cases m with
  | uninit => exact absurd rfl hm
  | disabled | enabled => exact if_neg hp

/-- Settles O19: the copy captured is the one of `writeFrameEffect_eq`, whose order is drawn by `copyOrder`. -/
theorem writeFrameResult : Obligations.WriteFrameResult := by
  unfold Obligations.WriteFrameResult
  refine fun s p h hm => ⟨fun hp => ?_, fun hp => ?_⟩
  · refine ⟨⟨⟨p.toArray, by simpa using hp⟩, copyOrder s.draws, 0⟩, _,
      exec_effect (.writeFrame p) s h.1 (fun _ => h.2) (faultOf_writeFrame hm hp), ?_, rfl, copyOrder_perm s.draws, rfl⟩
    rw [writeFrameEffect_eq p s hp]
  · exact exec_fault (.writeFrame p) s h .badFrameSize (faultOf_writeFrame_bad hm hp)

/-- Settles O21. -/
theorem disableResult : Obligations.DisableResult := by
  unfold Obligations.DisableResult
  refine fun s h => ⟨fun hm => ?_, fun hm => ?_⟩
  · exact exec_effect .disable s h.1 (fun _ => h.2) (by rw [hm]; rfl)
  · exact exec_fault .disable s h .disableWhileDisabled (by rw [hm]; rfl)

/-! ### The mode (60_exceptions.md R220) -/

/-- A request that moves the mode raises no fault where it does so, and every other request that raises none keeps
it. -/
theorem modeAfter_eq_of_faultOf {i : Instr} {m : Mode} (hf : faultOf i m = none) :
    modeAfter i m =
      if i = .init ∧ m = .uninit then .disabled
      else if i = .enable ∧ m = .disabled then .enabled
      else if i = .disable ∧ m = .enabled then .disabled
      else m := by
  cases i with
  | init =>
    cases m with
    | uninit => rfl
    | disabled | enabled => cases hf
  | enable =>
    cases m with
    | disabled => rfl
    | uninit | enabled => cases hf
  | disable =>
    cases m with
    | enabled => rfl
    | uninit | disabled => cases hf
  | _ => simp [modeAfter]

/-- Settles O47: none of the three transitions faults, so a fault leaves the mode; and no effect leads back to
UNINIT. -/
theorem modeTransitions : Obligations.ModeTransitions := by
  unfold Obligations.ModeTransitions
  constructor
  · intro i s t h
    obtain ⟨_, _, ⟨c, hf, rfl⟩ | ⟨hf, rfl⟩⟩ := exec_next i s t h
    · have hno {j : Instr} {m : Mode} (hj : faultOf j m = none) : ¬ (i = j ∧ s.mode = m) := by
        rintro ⟨rfl, rfl⟩
        rw [hj] at hf; cases hf
      rw [if_neg (hno rfl), if_neg (hno rfl), if_neg (hno rfl)]
      rfl
    · rw [(effectOf_frame i s).mode, modeAfter_eq_of_faultOf hf]
  · intro s t hst hm
    obtain ⟨rest, rfl | ⟨f, r, rfl⟩ | ⟨i, _, rfl⟩⟩ := step_cases s t hst
    · obtain ⟨m, c, he⟩ := copyStep_frame (s.setTurns rest)
      rw [he]
      exact hm
    · exact hm
    · rw [(effectOf_frame i (s.setTurns rest)).mode]
      exact mt (modeAfter_eq_uninit i s.mode) hm

end Sys2Proof.Machine

/-! ### Reset and hazards (70_reset_and_hazards.md R247, R251)

The hold by the turn of a held host and `exec_held`; then the event counts, request by request, from the events that
each effect appends. -/

namespace Sys2Proof.Machine

/-- Settles O11: a held host's turn is a step of the copy agent, which leaves the turns alone. -/
theorem copyHoldsTheHost : Obligations.CopyHoldsTheHost := by
  unfold Obligations.CopyHoldsTheHost
  intro s c h hc
  have hcopy : s.copy ≠ none := by rw [hc]; exact nofun
  refine ⟨fun w payload rest hturns => ?_, fun i hi => exec_held i s h hi hcopy⟩
  have hkept : (copyStep s).turns = s.turns := by rw [copyStep_some s c hc]
  exact ⟨copyStep s, step_heldHost h hcopy hturns, hkept, copyAdvances_copyStep hc⟩

/-! ### How many events a request appends -/

theorem lineCount_append (es fs : List Event) : lineCount (es ++ fs) = lineCount es + lineCount fs :=
  List.countP_append

/-- A row frame is line drives only (41_render_engine.md R138). -/
theorem lineCount_rowFrameEvents (r : RowIx) (c : ColIx → Bool) : lineCount (rowFrameEvents r c) = 194 := by
  rw [← length_rowFrameEvents r c, lineCount, List.countP_eq_length, ← List.all_eq_true]
  exact rowFrameEvents_isLine r c

/-- The notification after row 7 is an event, and no line drive. -/
theorem counts_tickEvents (s : State) :
    (lineCount (tickEvents s), (tickEvents s).length) = (194, if s.row = 7 then 195 else 194) := by
  rw [tickEvents, lineCount_append, List.length_append, lineCount_rowFrameEvents, length_rowFrameEvents]
  by_cases hrow : s.row = 7
  · rw [if_pos hrow, if_pos hrow]; rfl
  · rw [if_neg hrow, if_neg hrow]; rfl

/-- A WRITE_FRAME emits nothing, whatever its payload. -/
theorem trace_writeFrameEffect (payload : List Byte) (s : State) :
    (effectOf (.writeFrame payload) s).trace = s.trace := by
  by_cases hp : payload.length = 256
  · rw [writeFrameEffect_eq payload s hp]
  · rw [writeFrameEffect_bad payload s hp]

/-- Settles O52: a request that raises no fault has its effect, and the events of each effect are counted. -/
theorem eventCounts : Obligations.EventCounts := by
  unfold Obligations.EventCounts
  intro i s t h hfault
  obtain ⟨_, _, ⟨c, _, rfl⟩ | ⟨_, rfl⟩⟩ := exec_next i s t h
  · cases hfault
  cases i with
  | init => exact ⟨_, congrArg State.trace (initEffect_eq s), rfl⟩
  | writeFrame payload => exact ⟨[], by rw [trace_writeFrameEffect, List.append_nil], rfl⟩
  | enable | disable | setPeriod _ | latch _ => exact ⟨_, rfl, rfl⟩
  | shift byte => exact ⟨byteEvents byte, by rw [shiftEffect_eq], rfl⟩
  | command cmd data => exact ⟨commandEvents cmd data, by rw [commandEffect_eq], rfl⟩
  | tick =>
    by_cases hm : s.mode = .enabled
    · refine ⟨tickEvents s, by rw [tickEffect_enabled s hm, rowRender_eq], ?_⟩
      exact (counts_tickEvents s).trans (if_pos hm).symm
    · exact ⟨[], by rw [tickEffect_ignored s hm, List.append_nil], (if_neg hm).symm⟩

end Sys2Proof.Machine

/-! ### The words the spec and the opcode table write out (30_encoding.md R73, 95_test_vectors.md)

The words of the test vectors are `encodeWord` of their requests; a word presented next is the turn of its own port, so
that its request is the one that the step runs. -/

namespace Sys2Proof.Machine

/-- Settles O7: each word is the one its request is encoded as. -/
theorem sampleWordsDecode : Obligations.SampleWordsDecode := by
  unfold Obligations.SampleWordsDecode
  have roundTrip := decodeEncodeRoundTrip
  exact ⟨roundTrip .init, roundTrip (.writeFrame [0x80, 0xFF]), roundTrip .enable, roundTrip .disable,
    roundTrip (.setPeriod 1000), roundTrip (.latch true), roundTrip (.shift 0xA5), roundTrip (.command 0x0C 0x01),
    roundTrip .tick⟩

/-! ### A word presented next -/

/-- TICK is the one request of the timer port (30_encoding.md R71). -/
theorem eq_tick_of_timer {i : Instr} (h : i.opcode.port = .timer) : i = .tick := by
  cases i with
  | tick => rfl
  | init | writeFrame _ | enable | disable | setPeriod _ | latch _ | shift _ | command _ _ => cases h

theorem decode_of_decodeTableWord {n w : Nat} {i : Instr} (h : decodeTableWord n w = some i) :
    decode (BitVec.ofNat 32 (w % 2 ^ n)) zeroPayload = .ok i := by
  rw [decodeTableWord] at h
  split at h
  · next hd => rw [hd, Option.some.inj h]
  · cases h

/-- The turn of a presented word is one that its port may take, so the step runs its request (log entry 15). -/
theorem step_presentNext {w : Word} {i : Instr} (h : decode w zeroPayload = .ok i) (s : State) :
    step (presentNext w s) =
      exec i { s with fault := none, refused := none, copy := if i = .tick then s.copy else none } := by
  obtain ⟨runsHost, runsTimer⟩ := stepRunsDecodedRequest
  obtain ⟨hword, hport⟩ := acceptedWordIsItsRequestsWord (portOf w) w zeroPayload i h
  cases hp : portOf w with
  | host =>
    rw [decode, hp] at h
    rw [presentNext, turnOf, hp, if_neg (ne_tick_of_host i (hport.trans hp))]
    exact runsHost _ w zeroPayload s.turns i ⟨⟨rfl, rfl⟩, rfl⟩ rfl h
  | timer =>
    obtain rfl := eq_tick_of_timer (hport.trans hp)
    obtain rfl := hword
    rw [presentNext, turnOf, hp, if_pos rfl]
    exact runsTimer _ _ s.turns .tick ⟨rfl, rfl⟩ rfl (decodeEncodeRoundTrip .tick)

/-- Settles O9: a table word is presented on its own port. -/
theorem presentedWordRunsNext : Obligations.PresentedWordRunsNext := by
  unfold Obligations.PresentedWordRunsNext
  exact fun s _ _ h => step_presentNext (decode_of_decodeTableWord h) s

end Sys2Proof.Machine
